-- ==== Sys2Proof/Word.lean ====
section
/-! DEFINITION. The word type. Only the opcode port has a width, 8 bits (spec/00_scope.md R6). A register value, a stack
value and every operand is a mathematical integer with no width, Lean's `Int`, whose `+`, `-`, `*`, `<` and `=` are
the exact operations of R5 (10_state.md R22, 43_arithmetic.md R156). -/

namespace Sys2Proof

/-- The opcode byte `op[7:0]`, bit 0 the least significant (R6, 30_encoding.md R74). -/
abbrev OpByte := BitVec 8

end Sys2Proof
end

