-- ==== Sys2Proof/Config.lean ====
section
/-! DEFINITION. The parameters of the block and the values this hardware takes (spec/00_scope.md R4), and the
free texts of the Instruction Catalog, which the spec leaves open (93_implementation_defined.md U7). -/

namespace Sys2Proof.Config

/-- `NUM_REGS`: the Register File has 12 registers, not configurable (R4). -/
def numRegs : Nat := 12

/-- `CAP`: the Stack has 10 cells (R4, R29). The rules are written with `CAP`; this hardware is `CAP = 10` (D29). -/
abbrev cap : Nat := 10

/-- `NUM_OPCODES` (R4). -/
def numOpcodes : Nat := 16

/-- The parameter `STAGING` (R4, 40_dispatch.md R113): whether POP and the binary stack opcodes are announced first and
applied at `commit`, or applied at once. -/
inductive Staging where
  | twoPhase
  | immediate
deriving DecidableEq, Repr

/-- This hardware is `STAGING = two_phase` (R4, D9). -/
def staging : Staging := .twoPhase

/-- The text of the stack-diagram hint frame of an opcode id, before the instruction. 30_encoding.md R81 names the frames and the
spec gives no content (91_not_in_source.md N9): a free value, fixed for the machine as the catalog is never mutated. That a frame
is a text is a DESIGN CHOICE (notes/assumptions/25.md). Safe. -/
opaque hintFrameBefore : Nat → String

/-- The text of the stack-diagram hint frame of an opcode id, after the instruction: a free value (R81, U7;
notes/assumptions/25.md). Safe. -/
opaque hintFrameAfter : Nat → String

end Sys2Proof.Config
end

