-- ==== Sys2Proof/Syntax.lean ====
section
/-! DEFINITION. The names of the block (registers, mnemonics, formats), the instruction type `Instr` with one constructor
per row of spec/opcode_table.json, and the word a Driver presents on the ports of `execute`. -/

namespace Sys2Proof

/-- The 12 registers of the Register File (spec/10_state.md R21). There is no G and no H. -/
inductive Reg where
  | A | B | C | D | E | F | I | J
  | EX | EXA
  | IP | SP
deriving DecidableEq, Repr

/-- The three register classes (R21). -/
inductive RegClass where
  | general | special | pointer
deriving DecidableEq, Repr

/-- The 16 mnemonics (spec/00_scope.md R1, 30_encoding.md R76). -/
inductive Mnemonic where
  | HLT | NOP | PSH | POP | ADD | SUB | MUL | DIV | SLT | MOV | SET | LOG | IF | IFN | GLD | GPT
deriving DecidableEq, Repr

/-- The set `STAGED` (40_dispatch.md R107), the opcodes that can be pending (10_state.md R33). -/
inductive Staged where
  | pop | add | sub | mul | div | slt
deriving DecidableEq, Repr

/-- The six formats (30_encoding.md R72). -/
inductive Format where
  | Z | V | R | RR | RV | RVT
deriving DecidableEq, Repr

/-- The operand kinds (30_encoding.md R75); a register operand is a source or a destination (R103, R104). -/
inductive OperandKind where
  | source | destination | val | target
deriving DecidableEq, Repr

/-- An instruction with exactly the operands of its format (30_encoding.md R77). A register operand is the number the
Driver presents, any integer: whether it names a register is checked when the instruction is executed
(40_dispatch.md R103, R104). -/
inductive Instr where
  | hlt
  | nop
  | psh (val : Int)
  | pop
  | add
  | sub
  | mul
  | div
  | slt
  | mov (regA regB : Int)
  | set (reg val : Int)
  | log (reg : Int)
  | if_ (reg val target : Int)
  | ifn (reg val target : Int)
  | gld (reg : Int)
  | gpt (reg : Int)
deriving DecidableEq, Repr

/-- What stands on the ports `op`, `a0`, `a1`, `a2` of an `execute` command (30_encoding.md R70). -/
structure PortWord where
  op : OpByte
  a0 : Int
  a1 : Int
  a2 : Int
deriving DecidableEq, Repr

end Sys2Proof
end

