-- ==== Sys2Proof/WellFormed.lean ====
section
/-! DEFINITION. Which instructions have only legal register operands (spec/30_encoding.md R75, R78 (b) and (c)). Every
value of a `val` or `target` operand is legal. An instruction that is not well-formed can still be presented; the
block answers it with `InvalidRegister`. -/

namespace Sys2Proof

/-- The number names a register: 0 to 11 (10_state.md R23). -/
def namesRegister (n : Int) : Bool := decide (0 ≤ n ∧ n ≤ 11)

/-- The number names a register that MOV, SET and GPT may write: 0 to 10, since 11 is SP (10_state.md R26). -/
def namesDestination (n : Int) : Bool := namesRegister n && decide (n ≠ 11)

/-- Every register operand of the instruction is legal (R78). -/
def Instr.wellFormed : Instr → Bool
  | .hlt => true
  | .nop => true
  | .psh _ => true
  | .pop => true
  | .add => true
  | .sub => true
  | .mul => true
  | .div => true
  | .slt => true
  | .mov regA regB => namesRegister regA && namesDestination regB
  | .set reg _ => namesDestination reg
  | .log reg => namesRegister reg
  | .if_ reg _ _ => namesRegister reg
  | .ifn reg _ _ => namesRegister reg
  | .gld reg => namesRegister reg
  | .gpt reg => namesDestination reg

end Sys2Proof
end

