-- ==== Sys2Proof/Decode.lean ====
section
/-! DEFINITION. The opcode map and the register numbering as one table each (spec/30_encoding.md R76, 10_state.md R21),
formats and lengths (R72, R73), the decoder of the `execute` ports (R74, R75, R77), the encoder, and the byte-encoded
program form that Drivers use (R79). -/

namespace Sys2Proof

/-! ## Register numbers -/

/-- The registers in number order (10_state.md R21). -/
def Reg.all : List Reg := [.A, .B, .C, .D, .E, .F, .I, .J, .EX, .EXA, .IP, .SP]

/-- The register numbering, one replaceable table (10_state.md R21; the spec's decision D3). -/
def Reg.number : Reg → Int
  | .A => 0
  | .B => 1
  | .C => 2
  | .D => 3
  | .E => 4
  | .F => 5
  | .I => 6
  | .J => 7
  | .EX => 8
  | .EXA => 9
  | .IP => 10
  | .SP => 11

/-- The register a number names, if it names one (10_state.md R23). -/
def Reg.ofNumber (n : Int) : Option Reg := Reg.all.find? fun r => decide (r.number = n)

/-- The class of a register (10_state.md R21). -/
def Reg.cls : Reg → RegClass
  | .EX => .special
  | .EXA => .special
  | .IP => .pointer
  | .SP => .pointer
  | .A => .general
  | .B => .general
  | .C => .general
  | .D => .general
  | .E => .general
  | .F => .general
  | .I => .general
  | .J => .general

/-! ## Opcode map, formats and lengths -/

/-- The mnemonics in id order (30_encoding.md R76). -/
def Mnemonic.all : List Mnemonic :=
  [.HLT, .NOP, .PSH, .POP, .ADD, .SUB, .MUL, .DIV, .SLT, .MOV, .SET, .LOG, .IF, .IFN, .GLD, .GPT]

/-- The opcode map, one replaceable table (30_encoding.md R76; the spec's decision D2). -/
def Mnemonic.id : Mnemonic → Nat
  | .HLT => 0
  | .NOP => 1
  | .PSH => 2
  | .POP => 3
  | .ADD => 4
  | .SUB => 5
  | .MUL => 6
  | .DIV => 7
  | .SLT => 8
  | .MOV => 9
  | .SET => 10
  | .LOG => 11
  | .IF => 12
  | .IFN => 13
  | .GLD => 14
  | .GPT => 15

/-- The mnemonic of an opcode id. -/
def Mnemonic.ofId (n : Nat) : Option Mnemonic := Mnemonic.all.find? fun m => decide (m.id = n)

/-- The format of each mnemonic (30_encoding.md R72, R76). -/
def Mnemonic.format : Mnemonic → Format
  | .HLT => .Z
  | .NOP => .Z
  | .PSH => .V
  | .POP => .Z
  | .ADD => .Z
  | .SUB => .Z
  | .MUL => .Z
  | .DIV => .Z
  | .SLT => .Z
  | .MOV => .RR
  | .SET => .RV
  | .LOG => .R
  | .IF => .RVT
  | .IFN => .RVT
  | .GLD => .R
  | .GPT => .R

/-- How many operand positions a format has (30_encoding.md R72). -/
def Format.operandCount : Format → Nat
  | .Z => 0
  | .V => 1
  | .R => 1
  | .RR => 2
  | .RV => 2
  | .RVT => 3

/-- `operandByteCount(m)` (30_encoding.md R73). -/
def Mnemonic.operandByteCount (m : Mnemonic) : Nat := m.format.operandCount

/-- `len(m) = 1 + operandByteCount(m)`, in positions (30_encoding.md R73). -/
def Mnemonic.len (m : Mnemonic) : Nat := 1 + m.operandByteCount

/-- The operands of each mnemonic in port order (30_encoding.md R72, R76; destinations as in 40_dispatch.md R104). -/
def Mnemonic.operandKinds : Mnemonic → List OperandKind
  | .HLT => []
  | .NOP => []
  | .PSH => [.val]
  | .POP => []
  | .ADD => []
  | .SUB => []
  | .MUL => []
  | .DIV => []
  | .SLT => []
  | .MOV => [.source, .destination]
  | .SET => [.destination, .val]
  | .LOG => [.source]
  | .IF => [.source, .val, .target]
  | .IFN => [.source, .val, .target]
  | .GLD => [.source]
  | .GPT => [.destination]

/-- The mnemonic of a staged opcode. -/
def Staged.mnemonic : Staged → Mnemonic
  | .pop => .POP
  | .add => .ADD
  | .sub => .SUB
  | .mul => .MUL
  | .div => .DIV
  | .slt => .SLT

/-- The staged opcode of a mnemonic, where it is one (40_dispatch.md R107). -/
def Mnemonic.staged : Mnemonic → Option Staged
  | .POP => some .pop
  | .ADD => some .add
  | .SUB => some .sub
  | .MUL => some .mul
  | .DIV => some .div
  | .SLT => some .slt
  | .HLT => none
  | .NOP => none
  | .PSH => none
  | .MOV => none
  | .SET => none
  | .LOG => none
  | .IF => none
  | .IFN => none
  | .GLD => none
  | .GPT => none

/-- The mnemonic of an instruction. -/
def Instr.mnemonic : Instr → Mnemonic
  | .hlt => .HLT
  | .nop => .NOP
  | .psh _ => .PSH
  | .pop => .POP
  | .add => .ADD
  | .sub => .SUB
  | .mul => .MUL
  | .div => .DIV
  | .slt => .SLT
  | .mov _ _ => .MOV
  | .set _ _ => .SET
  | .log _ => .LOG
  | .if_ _ _ _ => .IF
  | .ifn _ _ _ => .IFN
  | .gld _ => .GLD
  | .gpt _ => .GPT

/-- The operands of an instruction in port order (30_encoding.md R72). -/
def Instr.operands : Instr → List Int
  | .hlt => []
  | .nop => []
  | .psh val => [val]
  | .pop => []
  | .add => []
  | .sub => []
  | .mul => []
  | .div => []
  | .slt => []
  | .mov regA regB => [regA, regB]
  | .set reg val => [reg, val]
  | .log reg => [reg]
  | .if_ reg val target => [reg, val, target]
  | .ifn reg val target => [reg, val, target]
  | .gld reg => [reg]
  | .gpt reg => [reg]

/-! ## The decoder of the ports -/

/-- Why the decoder refuses a word. -/
inductive DecodeError where
  /-- `op` is none of the 16 ids, that is 16 to 255 (30_encoding.md R74, R78 (a)). -/
  | invalidOpcode (op : OpByte)
deriving DecidableEq, Repr

/-- `op[7:4]` (spec/00_scope.md R6). -/
def opHigh (op : OpByte) : BitVec 4 := op.extractLsb' 4 4

/-- `op[3:0]`, the opcode id when `op[7:4] == 0` (R6). -/
def opLow (op : OpByte) : BitVec 4 := op.extractLsb' 0 4

/-- The mnemonic of an opcode byte: none unless `op[7:4] == 0` (30_encoding.md R74). -/
def Mnemonic.ofOpcode (op : OpByte) : Option Mnemonic :=
  if opHigh op = 0 then Mnemonic.ofId (opLow op).toNat else none

/-- The opcode byte of a mnemonic. -/
def Mnemonic.opcode (m : Mnemonic) : OpByte := BitVec.ofNat 8 m.id

/-- An instruction of mnemonic `m` with its operands taken from the ports. Operands are delivered whole and ports beyond
the format are not read (30_encoding.md R75, R77). -/
def Instr.ofPorts (m : Mnemonic) (a0 a1 a2 : Int) : Instr :=
  match m with
  | .HLT => .hlt
  | .NOP => .nop
  | .PSH => .psh a0
  | .POP => .pop
  | .ADD => .add
  | .SUB => .sub
  | .MUL => .mul
  | .DIV => .div
  | .SLT => .slt
  | .MOV => .mov a0 a1
  | .SET => .set a0 a1
  | .LOG => .log a0
  | .IF => .if_ a0 a1 a2
  | .IFN => .ifn a0 a1 a2
  | .GLD => .gld a0
  | .GPT => .gpt a0

/-- The decoder: total on every word, rejecting by name (30_encoding.md R74, R76). -/
def decode (w : PortWord) : Except DecodeError Instr :=
  match Mnemonic.ofOpcode w.op with
  | none => .error (.invalidOpcode w.op)
  | some m => .ok (Instr.ofPorts m w.a0 w.a1 w.a2)

/-! ## The encoder -/

/-- The word that presents an instruction. Ports beyond the format carry 0; the block never reads them (R77). -/
def encode (i : Instr) : PortWord :=
  { op := i.mnemonic.opcode
    a0 := i.operands.getD 0 0
    a1 := i.operands.getD 1 0
    a2 := i.operands.getD 2 0 }

/-! ## The byte-encoded program form of Drivers and tests -/

/-- The positions an instruction occupies in a program: its opcode id, then its operands (30_encoding.md R79). -/
def Instr.positions (i : Instr) : List Int := (i.mnemonic.id : Int) :: i.operands

/-- Read one instruction from the front of a program and return it with the rest (R79). None where the first position
is no opcode id or where operands are missing. -/
def decodePositions : List Int → Option (Instr × List Int)
  | [] => none
  | op :: rest =>
    if 0 ≤ op then
      match Mnemonic.ofId op.toNat with
      | none => none
      | some m =>
        if rest.length < m.operandByteCount then none
        else some (Instr.ofPorts m (rest.getD 0 0) (rest.getD 1 0) (rest.getD 2 0), rest.drop m.operandByteCount)
    else none

/-- The instruction at position `p` of a program `P` (R79), as a Driver that follows `pc` reads it (70_reset_and_hazards.md
R238). The block itself never reads a program. -/
def programAt (P : List Int) (p : Int) : Option (Instr × List Int) :=
  if 0 ≤ p then decodePositions (P.drop p.toNat) else none

/-! ## The host's view of a table word -/

/-- The word whose first byte is the opcode and whose later bytes are the operand positions, low byte first; bits from
`nbits` up are 0. The table gives every row 8 bits, so its operands are all 0. -/
def tableWord (nbits w : Nat) : PortWord :=
  let b := w % 2 ^ nbits
  { op := BitVec.ofNat 8 b
    a0 := ((b / 2 ^ 8 % 2 ^ 8 : Nat) : Int)
    a1 := ((b / 2 ^ 16 % 2 ^ 8 : Nat) : Int)
    a2 := ((b / 2 ^ 24 % 2 ^ 8 : Nat) : Int) }

/-- The instruction the decoder reads from a word of spec/opcode_table.json. -/
def decodeTableWord (nbits w : Nat) : Option Instr :=
  match decode (tableWord nbits w) with
  | .ok i => some i
  | .error _ => none

end Sys2Proof
end

