-- ==== Sys2Proof/Machine/State.lean ====
section
/-! DEFINITION. The state of one dispatcher (spec/10_state.md R20), the commands a Driver presents (30_encoding.md R70),
the responses and events the block gives (40_dispatch.md R114 to R118), the reasons a step can stop, and the state
after reset (10_state.md R38). -/

namespace Sys2Proof.Machine

/-! ## The block's own state -/

/-- The Register File: 12 registers, each an unbounded integer (10_state.md R21, R22). -/
structure RegFile where
  A : Int
  B : Int
  C : Int
  D : Int
  E : Int
  F : Int
  I : Int
  J : Int
  EX : Int
  EXA : Int
  IP : Int
  SP : Int
deriving DecidableEq, Repr

/-- The engine: `Idle`, or `AwaitingCommit` with its pending opcode, which is present in that mode only
(10_state.md R20 (c) and (d), R32, R33). -/
inductive Engine where
  | idle
  | awaitingCommit (pending : Staged)
deriving DecidableEq, Repr

/-- The two engine modes (R32). -/
inductive Mode where
  | idle
  | awaitingCommit
deriving DecidableEq, Repr

/-! ## What a Driver presents -/

/-- A command other than `reset` (30_encoding.md R70, port `cmd_kind` with `op`, `a0`, `a1`, `a2`). -/
inductive Command where
  | execute (word : PortWord)
  | commit
deriving DecidableEq, Repr

/-- What stands on the input ports for one transaction: `reset`, a command, both or neither
(30_encoding.md R70; 70_reset_and_hazards.md R231 says what both together do). -/
structure Presented where
  reset : Bool
  command : Option Command
deriving DecidableEq, Repr

/-! ## What the block answers -/

/-- The five error kinds (60_exceptions.md R200). -/
inductive ErrorKind where
  | stackOverflow | stackUnderflow | divideByZero | invalidRegister | invalidOpcode
deriving DecidableEq, Repr

/-- An error with the `info` it records (40_dispatch.md R116, 60_exceptions.md R201). -/
inductive Error where
  | stackOverflow
  | stackUnderflow
  | divideByZero
  | invalidRegister (port : Nat) (value : Int)
  | invalidOpcode (op : OpByte)
deriving DecidableEq, Repr

/-- Why a command is rejected (40_dispatch.md R117). -/
inductive RejectReason where
  | busy
  | nothingPending
deriving DecidableEq, Repr

/-- `Result` (40_dispatch.md R114). A cell is `none` when it is `EMPTY`. -/
structure Result where
  changedRegisters : List (Reg × Int)
  changedStackCells : List (Int × Option Int)
  newIP : Int
  halt : Bool
deriving DecidableEq, Repr

/-- The four response records (40_dispatch.md R114 to R117). `consumed` lists index and value, top first (R115). -/
inductive Response where
  | result (r : Result)
  | preview (m : Mnemonic) (consumed : List (Int × Int))
  | error (e : Error)
  | rejected (reason : RejectReason)
deriving DecidableEq, Repr

/-- The `opcodeName` of `onLog`: a mnemonic, or the raw byte of an invalid opcode (40_dispatch.md R118). -/
inductive OpcodeName where
  | mnemonic (m : Mnemonic)
  | raw (op : OpByte)
deriving DecidableEq, Repr

/-- The four event types (40_dispatch.md R118). `detail` is LOG's payload, the only text-like field the spec models. -/
inductive Event where
  | onLog (opcodeName : OpcodeName) (detail : Option (Reg × Int)) (isError : Bool)
  | onRegisterChanged (name : Reg) (newValue : Int)
  | onStackChanged (index : Int) (newValueOrEmpty : Option Int)
  | onIPChanged (newIP : Int)
deriving DecidableEq, Repr

/-! ## The state -/

/-- The state of one dispatcher with its ports. `regs`, `cells` and `engine` are the block's whole state (10_state.md R20);
`input`, `response` and `events` are the model's own fields for the ports (notes/assumptions/1.md, 2.md). -/
structure State where
  /-- The Register File (R21). -/
  regs : RegFile
  /-- The Stack: `CAP` cells, each `EMPTY` (none) or a value (R28). -/
  cells : Vector (Option Int) Config.cap
  /-- The engine mode with the pending opcode (R32, R33). -/
  engine : Engine
  /-- What the Driver presents, one entry a transaction, next first. -/
  input : List Presented
  /-- The response of the last transaction, none where it has none. -/
  response : Option Response
  /-- The events of the last transaction, in order. -/
  events : List Event
deriving DecidableEq, Repr

/-- Why a step stops the model. The block itself has no fault that stops it (40_dispatch.md R122). Each reason below is
raised only in a state that breaks the invariant of 10_state.md R30 and R33, which no run from reset reaches; all are
safe (notes/assumptions/3.md). -/
inductive Fault where
  /-- Raised by PSH and GLD where `sp + 1` is no cell index and `sp` is not `CAP-1`: no cell has that index
  (20_memory.md R51). Safe. -/
  | noSuchCell (index : Int)
  /-- Raised by the commit of POP where `cell[sp]` is `EMPTY` though `sp` is not -1: R57 gives no value there. Safe. -/
  | emptyCell (index : Int)
  /-- Raised by a commit whose precondition no longer holds, which R108 and R33 exclude. Safe. -/
  | pendingPreconditionBroken (pending : Staged)
deriving DecidableEq, Repr

/-- Why an instruction has no meaning in the model. -/
inductive Refusal where
  /-- An arm of `exec` that has no meaning yet answers with this; none does in this model. Safe. -/
  | notModelled (mnemonic : String)
deriving DecidableEq, Repr

/-- The Register File after reset: every register 0, SP -1 (10_state.md R37, R38). -/
def RegFile.baseline : RegFile :=
  { A := 0, B := 0, C := 0, D := 0, E := 0, F := 0, I := 0, J := 0, EX := 0, EXA := 0, IP := 0, SP := -1 }

/-- The machine right after reset (10_state.md R38, 70_reset_and_hazards.md R230): the Driver has presented nothing yet, and a reset
has no response and no event (R231). -/
def State.reset : State :=
  { regs := RegFile.baseline
    cells := Vector.replicate Config.cap none
    engine := .idle
    input := []
    response := none
    events := [] }

end Sys2Proof.Machine
end

