-- ==== Sys2Proof/Machine/Ops.lean ====
section
/-! DEFINITION. The shared operations of every instruction: register and cell access (spec/00_scope.md R7, R8), the
Stack primitives push, pop and peek (20_memory.md R56 to R58), raising an error (60_exceptions.md R209), completing a
transaction with its IP advance, Result and events (40_dispatch.md R100 steps 7 to 9), and announcing a staged opcode
(R107). There is no return from an error: nothing is saved, so nothing is restored (60_exceptions.md R210). -/

namespace Sys2Proof.Machine

/-! ## Registers -/

/-- `get` of the Register File (10_state.md R23). -/
def RegFile.get (x : RegFile) : Reg → Int
  | .A => x.A
  | .B => x.B
  | .C => x.C
  | .D => x.D
  | .E => x.E
  | .F => x.F
  | .I => x.I
  | .J => x.J
  | .EX => x.EX
  | .EXA => x.EXA
  | .IP => x.IP
  | .SP => x.SP

/-- `set` of the Register File: the whole value of one register is replaced (10_state.md R23). -/
def RegFile.set (x : RegFile) (r : Reg) (v : Int) : RegFile :=
  match r with
  | .A => { x with A := v }
  | .B => { x with B := v }
  | .C => { x with C := v }
  | .D => { x with D := v }
  | .E => { x with E := v }
  | .F => { x with F := v }
  | .I => { x with I := v }
  | .J => { x with J := v }
  | .EX => { x with EX := v }
  | .EXA => { x with EXA := v }
  | .IP => { x with IP := v }
  | .SP => { x with SP := v }

/-- `x[r]` (00_scope.md R7). -/
def State.reg (s : State) (r : Reg) : Int := s.regs.get r

/-- `x[r] <- v` (R7). -/
def State.setReg (s : State) (r : Reg) (v : Int) : State := { s with regs := s.regs.set r v }

/-- `pc`, a synonym of `x[IP]` (R7). -/
def State.pc (s : State) : Int := s.reg .IP

/-- `sp`, a synonym of `x[SP]` (R7). -/
def State.sp (s : State) : Int := s.reg .SP

/-! ## Cells -/

/-- The index is one of the Stack's `0..CAP-1` (20_memory.md R51). -/
def isCellIndex (i : Int) : Bool := decide (0 ≤ i ∧ i < (Config.cap : Int))

/-- `cell[i]`: none where the cell is `EMPTY`, and where there is no such cell (00_scope.md R8). -/
def State.cell (s : State) (i : Int) : Option Int :=
  if isCellIndex i then (s.cells[i.toNat]?).join else none

/-- `cell[i] <- v` (R8). -/
def State.setCell (s : State) (i : Int) (v : Option Int) : State :=
  if isCellIndex i then { s with cells := s.cells.setIfInBounds i.toNat v } else s

/-! ## Engine -/

/-- The engine mode (10_state.md R32). -/
def State.mode (s : State) : Mode :=
  match s.engine with
  | .idle => .idle
  | .awaitingCommit _ => .awaitingCommit

/-- The pending opcode, present only in `AwaitingCommit` (R33). -/
def State.pending (s : State) : Option Staged :=
  match s.engine with
  | .idle => none
  | .awaitingCommit m => some m

/-- The output `ready`: true exactly in mode `Idle` (R32). -/
def State.ready (s : State) : Bool := decide (s.mode = .idle)

/-! ## Errors -/

/-- The kind of an error (60_exceptions.md R201). -/
def Error.kind : Error → ErrorKind
  | .stackOverflow => .stackOverflow
  | .stackUnderflow => .stackUnderflow
  | .divideByZero => .divideByZero
  | .invalidRegister _ _ => .invalidRegister
  | .invalidOpcode _ => .invalidOpcode

/-- The code of an error kind; 0 is no error (60_exceptions.md R201; the spec's decision D5). -/
def ErrorKind.code : ErrorKind → Nat
  | .stackOverflow => 1
  | .stackUnderflow => 2
  | .divideByZero => 3
  | .invalidRegister => 4
  | .invalidOpcode => 5

/-- Why a check or a primitive does not go on: it raises an error of the block, or the state breaks the invariant and the
spec gives it nothing to do. -/
inductive Stop where
  | raise (e : Error)
  | fault (f : Fault)
deriving DecidableEq, Repr

/-- The outputs of one transaction. -/
def State.answer (s : State) (response : Option Response) (events : List Event) : State :=
  { s with response := response, events := events }

/-- Raising an error, the block's only exception entry: the Error response and one `onLog` with `isError`, and no other
change (60_exceptions.md R209, 40_dispatch.md R116, R120). -/
def raiseError (name : OpcodeName) (e : Error) (s : State) : State :=
  s.answer (some (.error e)) [.onLog name none true]

/-- A command the protocol does not allow in this mode (40_dispatch.md R117, R121). -/
def reject (reason : RejectReason) (s : State) : State := s.answer (some (.rejected reason)) []

/-! ## Stack primitives -/

/-- `push(v)` (20_memory.md R56). -/
def push (v : Int) (s : State) : Except Stop State :=
  if s.sp = (Config.cap : Int) - 1 then .error (.raise .stackOverflow)
  else if isCellIndex (s.sp + 1) then .ok ((s.setReg .SP (s.sp + 1)).setCell (s.sp + 1) (some v))
  else .error (.fault (.noSuchCell (s.sp + 1)))

/-- `pop()` (20_memory.md R57). -/
def pop (s : State) : Except Stop (Int × State) :=
  if s.sp = -1 then .error (.raise .stackUnderflow)
  else match s.cell s.sp with
    | some v => .ok (v, (s.setCell s.sp none).setReg .SP (s.sp - 1))
    | none => .error (.fault (.emptyCell s.sp))

/-- `peek(k)` (20_memory.md R58): it fails where the addressed index is empty, negative or above the last cell. -/
def peek (k : Int) (s : State) : Except Stop Int :=
  match s.cell (s.sp - k) with
  | some v => .ok v
  | none => .error (.raise .stackUnderflow)

/-! ## Completing a transaction -/

/-- What `apply(m)` leaves (files 41 to 46): the state after its writes and before the advance, the registers and cells
it wrote in ascending order, whether a branch is taken, the halt signal and LOG's payload. -/
structure Applied where
  state : State
  regs : List Reg := []
  cells : List Int := []
  taken : Bool := false
  halt : Bool := false
  detail : Option (Reg × Int) := none
deriving DecidableEq, Repr

/-- Step 8 of R100: the IP advance, which reads `pc` after the writes (40_dispatch.md R110, R111). -/
def advance (m : Mnemonic) (a : Applied) : State :=
  if m = .HLT ∨ a.taken = true then a.state
  else a.state.setReg .IP (a.state.pc + (m.len : Int))

/-- The Result of a transaction that ends in `s`: every written register other than IP and every written cell with its
final content (40_dispatch.md R114). -/
def resultOf (a : Applied) (s : State) : Result :=
  { changedRegisters := (a.regs.filter fun r => decide (r ≠ .IP)).map fun r => (r, s.reg r)
    changedStackCells := a.cells.map fun i => (i, s.cell i)
    newIP := s.pc
    halt := a.halt }

/-- The events of a successful transaction, in the order of 40_dispatch.md R119. -/
def successEvents (m : Mnemonic) (detail : Option (Reg × Int)) (r : Result) : List Event :=
  [.onLog (.mnemonic m) detail false]
    ++ r.changedRegisters.map (fun p => .onRegisterChanged p.1 p.2)
    ++ r.changedStackCells.map (fun p => .onStackChanged p.1 p.2)
    ++ (if m = .HLT then [] else [.onIPChanged r.newIP])

/-- Steps 8 and 9 of R100 after `apply(m)`. -/
def complete (m : Mnemonic) (a : Applied) : State :=
  let s := advance m a
  let r := resultOf a s
  s.answer (some (.result r)) (successEvents m a.detail r)

/-- What a check or an `apply` that ran in mode `Idle` leads to. -/
def conclude (m : Mnemonic) (s : State) : Except Stop Applied → Host.Outcome State Fault Refusal
  | .ok a => .next (complete m a)
  | .error (.raise e) => .next (raiseError (.mnemonic m) e s)
  | .error (.fault f) => .fault f

/-- `execute` of an opcode that is not staged, after the opcode check: the Busy rejection comes first (40_dispatch.md
R100 step 1, R101), then the checks and the effect. -/
def execAtOnce (m : Mnemonic) (body : Except Stop Applied) (s : State) : Host.Outcome State Fault Refusal :=
  match s.engine with
  | .awaitingCommit _ => .next (reject .busy s)
  | .idle => conclude m s body

/-! ## Staging -/

/-- The announce of a staged opcode: only the mode and `pending` change, and the Preview shows what the commit will
consume (40_dispatch.md R107, R115, R121). -/
def announce (m : Staged) (consumed : List (Int × Int)) (s : State) : State :=
  ({ s with engine := .awaitingCommit m } : State).answer (some (.preview m.mnemonic consumed)) []

/-- `execute` of a staged opcode under either value of `STAGING` (40_dispatch.md R100, R107, R113). -/
def execStagedWith (staging : Config.Staging) (m : Staged) (consumed : Except Stop (List (Int × Int)))
    (body : Except Stop Applied) (s : State) : Host.Outcome State Fault Refusal :=
  match s.engine with
  | .awaitingCommit _ => .next (reject .busy s)
  | .idle =>
    match consumed with
    | .error (.raise e) => .next (raiseError (.mnemonic m.mnemonic) e s)
    | .error (.fault f) => .fault f
    | .ok c =>
      match staging with
      | .twoPhase => .next (announce m c s)
      | .immediate => conclude m.mnemonic s body

/-- `execute` of a staged opcode on this hardware. -/
def execStaged (m : Staged) (consumed : Except Stop (List (Int × Int))) (body : Except Stop Applied) (s : State) :
    Host.Outcome State Fault Refusal :=
  execStagedWith Config.staging m consumed body s

/-! ## Reset -/

/-- `reset`: every register, cell, the mode and `pending` to the baseline, from any state (70_reset_and_hazards.md R230). It has
no response and no event (R231). What the Driver presents next stays. -/
def resetBlock (s : State) : State :=
  { State.reset with input := s.input }

end Sys2Proof.Machine
end

