-- ==== Sys2Proof/Machine/Operands.lean ====
section
/-! DEFINITION. Operand forms: the register operand checks of `execute` (spec/40_dispatch.md R103, R104), the operands the
staged opcodes consume (R105, R115), and the rounding division (00_scope.md R5). `val` and `target` operands are taken
whole and need no check (30_encoding.md R75). -/

namespace Sys2Proof.Machine

/-- A register operand: the number must name one of the 12 registers (40_dispatch.md R103). -/
def regOperand (port : Nat) (a : Int) : Except Stop Reg :=
  match Reg.ofNumber a with
  | some r => .ok r
  | none => .error (.raise (.invalidRegister port a))

/-- Step 4 of R100: SP is no destination of MOV, SET and GPT (40_dispatch.md R104). -/
def notSP (port : Nat) (r : Reg) : Except Stop Reg :=
  if r = .SP then .error (.raise (.invalidRegister port r.number)) else .ok r

/-- A destination register operand: the range check, then the SP test (R103, R104). -/
def dstOperand (port : Nat) (a : Int) : Except Stop Reg :=
  match regOperand port a with
  | .error e => .error e
  | .ok r => notSP port r

/-- The operands of MOV: both range checks in port order, then the SP test on the destination (40_dispatch.md R100 steps 3
and 4, R106). -/
def movOperands (regA regB : Int) : Except Stop (Reg × Reg) :=
  match regOperand 0 regA with
  | .error e => .error e
  | .ok a =>
    match regOperand 1 regB with
    | .error e => .error e
    | .ok b =>
      match notSP 1 b with
      | .error e => .error e
      | .ok b => .ok (a, b)

/-- The two values a binary stack opcode consumes, second and top; `StackUnderflow` where there are not two
(40_dispatch.md R105, 43_arithmetic.md R150, 20_memory.md R58). -/
def twoOperands (s : State) : Except Stop (Int × Int) :=
  match peek 0 s with
  | .error e => .error e
  | .ok top =>
    match peek 1 s with
    | .error e => .error e
    | .ok second => .ok (second, top)

/-- The operands of DIV: `DivideByZero` where there are two and the top is 0 (40_dispatch.md R105, R106). -/
def divOperands (s : State) : Except Stop (Int × Int) :=
  match twoOperands s with
  | .error e => .error e
  | .ok (second, top) => if top = 0 then .error (.raise .divideByZero) else .ok (second, top)

/-- What POP's commit will consume (40_dispatch.md R115). -/
def previewOne (s : State) : Except Stop (List (Int × Int)) :=
  match peek 0 s with
  | .error e => .error e
  | .ok v => .ok [(s.sp, v)]

/-- What the commit of a binary stack opcode will consume, top first (R115). -/
def previewTwo (operands : Except Stop (Int × Int)) (s : State) : Except Stop (List (Int × Int)) :=
  match operands with
  | .error e => .error e
  | .ok (second, top) => .ok [(s.sp, top), (s.sp - 1, second)]

/-- `trunc(b / a)`: the quotient rounded toward zero, for `a ≠ 0` (00_scope.md R5). -/
def trunc (b a : Int) : Int := b.tdiv a

end Sys2Proof.Machine
end

