-- ==== Sys2Proof/Machine/Flags.lean ====
section
/-! DEFINITION. The block has no flags and no condition codes (spec/10_state.md R35). What stands in their place: the
comparison result SLT pushes (43_arithmetic.md R155) and the conditions IF and IFN test (45_branch_if_ifn.md R180,
R181). -/

namespace Sys2Proof.Machine

/-- The value SLT pushes: 1 if second is less than top as signed integers, else 0 (43_arithmetic.md R155). -/
def lessThan (second top : Int) : Int := if second < top then 1 else 0

/-- Whether IF is taken: the register equals `val` (45_branch_if_ifn.md R180). -/
def takenIf (x val : Int) : Bool := decide (x = val)

/-- Whether IFN is taken: the register differs from `val` (R181). -/
def takenIfn (x val : Int) : Bool := decide (x ≠ val)

end Sys2Proof.Machine
end

