-- ==== Sys2Proof/Machine/Control.lean ====
section
/-! DEFINITION. HLT and NOP (spec/41_control_hlt_nop.md). -/

namespace Sys2Proof.Machine

/-- HLT signals the Driver to stop and changes no state, `pc` included; there is no halted state (R130, 70_reset_and_hazards.md R237). -/
def execHlt (s : State) : Host.Outcome State Fault Refusal :=
  execAtOnce .HLT (.ok { state := s, halt := true }) s

/-- NOP only advances `pc` (R131). -/
def execNop (s : State) : Host.Outcome State Fault Refusal :=
  execAtOnce .NOP (.ok { state := s }) s

end Sys2Proof.Machine
end

