-- ==== Sys2Proof/Machine/Stack.lean ====
section
/-! DEFINITION. PSH and POP (spec/42_stack_psh_pop.md). -/

namespace Sys2Proof.Machine

/-- What a push by PSH or GLD wrote: SP and the new top cell (R140, 46_stack_register_gld_gpt.md R190). -/
def pushed (v : Int) (s : State) : Except Stop Applied :=
  match push v s with
  | .error e => .error e
  | .ok t => .ok { state := t, regs := [.SP], cells := [t.sp] }

/-- `apply(PSH)` with its precondition (R140). -/
def applyPsh (val : Int) (s : State) : Except Stop Applied := pushed val s

/-- PSH pushes its operand (R140). -/
def execPsh (val : Int) (s : State) : Host.Outcome State Fault Refusal :=
  execAtOnce .PSH (applyPsh val s) s

/-- `apply(POP)`: the top value is discarded (R141). -/
def applyPop (s : State) : Except Stop Applied :=
  match pop s with
  | .error e => .error e
  | .ok (_, t) => .ok { state := t, regs := [.SP], cells := [s.sp] }

/-- POP, announced here and applied at commit (R141, 40_dispatch.md R107). -/
def execPop (s : State) : Host.Outcome State Fault Refusal :=
  execStaged .pop (previewOne s) (applyPop s) s

end Sys2Proof.Machine
end

