-- ==== Sys2Proof/Machine/Arithmetic.lean ====
section
/-! DEFINITION. ADD, SUB, MUL, DIV and SLT (spec/43_arithmetic.md). All five are staged: `exec` announces, the commit applies. -/

namespace Sys2Proof.Machine

/-- The shared `apply` of the binary stack opcodes: the top cell becomes `EMPTY`, the second becomes the result, `sp`
falls by 1, and no other register is touched (R150). -/
def applyBinary (f : Int → Int → Int) (operands : Except Stop (Int × Int)) (s : State) : Except Stop Applied :=
  match operands with
  | .error e => .error e
  | .ok (second, top) =>
    .ok { state := ((s.setCell s.sp none).setCell (s.sp - 1) (some (f second top))).setReg .SP (s.sp - 1)
          regs := [.SP]
          cells := [s.sp - 1, s.sp] }

/-- `apply(ADD)`: second plus top (R151). -/
def applyAdd (s : State) : Except Stop Applied := applyBinary (fun second top => second + top) (twoOperands s) s

/-- ADD (R151). -/
def execAdd (s : State) : Host.Outcome State Fault Refusal :=
  execStaged .add (previewTwo (twoOperands s) s) (applyAdd s) s

/-- `apply(SUB)`: second minus top (R152). -/
def applySub (s : State) : Except Stop Applied := applyBinary (fun second top => second - top) (twoOperands s) s

/-- SUB (R152). -/
def execSub (s : State) : Host.Outcome State Fault Refusal :=
  execStaged .sub (previewTwo (twoOperands s) s) (applySub s) s

/-- `apply(MUL)`: second times top (R153). -/
def applyMul (s : State) : Except Stop Applied := applyBinary (fun second top => second * top) (twoOperands s) s

/-- MUL (R153). -/
def execMul (s : State) : Host.Outcome State Fault Refusal :=
  execStaged .mul (previewTwo (twoOperands s) s) (applyMul s) s

/-- `apply(DIV)`: second divided by top, rounded toward zero (R154). -/
def applyDiv (s : State) : Except Stop Applied := applyBinary trunc (divOperands s) s

/-- DIV; a zero divisor is reported at the announce (R154). -/
def execDiv (s : State) : Host.Outcome State Fault Refusal :=
  execStaged .div (previewTwo (divOperands s) s) (applyDiv s) s

/-- `apply(SLT)`: 1 if second is less than top, else 0 (R155). -/
def applySlt (s : State) : Except Stop Applied := applyBinary lessThan (twoOperands s) s

/-- SLT (R155). -/
def execSlt (s : State) : Host.Outcome State Fault Refusal :=
  execStaged .slt (previewTwo (twoOperands s) s) (applySlt s) s

end Sys2Proof.Machine
end

