-- ==== Sys2Proof/Machine/Register.lean ====
section
/-! DEFINITION. MOV, SET and LOG (spec/44_register_mov_set_log.md). None touches the stack and none is staged. -/

namespace Sys2Proof.Machine

/-- A write of `v` to the register `r`, reported as such (40_dispatch.md R114). A write to IP is an ordinary write; the
advance follows it (R111). -/
def wroteReg (r : Reg) (v : Int) (s : State) : Applied :=
  { state := s.setReg r v, regs := [r] }

/-- The checks and `apply(MOV)`: the source is read at the start of the transaction (R170, 40_dispatch.md R112). -/
def applyMov (regA regB : Int) (s : State) : Except Stop Applied :=
  match movOperands regA regB with
  | .error e => .error e
  | .ok (a, b) => .ok (wroteReg b (s.reg a) s)

/-- MOV copies `regA` into `regB` (R170). -/
def execMov (regA regB : Int) (s : State) : Host.Outcome State Fault Refusal :=
  execAtOnce .MOV (applyMov regA regB s) s

/-- The checks and `apply(SET)` (R171). -/
def applySet (reg val : Int) (s : State) : Except Stop Applied :=
  match dstOperand 0 reg with
  | .error e => .error e
  | .ok r => .ok (wroteReg r val s)

/-- SET loads a constant into a register (R171). -/
def execSet (reg val : Int) (s : State) : Host.Outcome State Fault Refusal :=
  execAtOnce .SET (applySet reg val s) s

/-- The check and `apply(LOG)`: the register's number and value go out as the `detail` of the one `onLog` (R172). -/
def applyLog (reg : Int) (s : State) : Except Stop Applied :=
  match regOperand 0 reg with
  | .error e => .error e
  | .ok r => .ok { state := s, detail := some (r, s.reg r) }

/-- LOG reports a register to the Observer (R172). -/
def execLog (reg : Int) (s : State) : Host.Outcome State Fault Refusal :=
  execAtOnce .LOG (applyLog reg s) s

end Sys2Proof.Machine
end

