-- ==== Sys2Proof/Machine/Branch.lean ====
section
/-! DEFINITION. IF and IFN (spec/45_branch_if_ifn.md), the only control transfers (R182). -/

namespace Sys2Proof.Machine

/-- The shared `apply` of IF and IFN: a taken branch writes `pc` and no advance follows; one not taken writes nothing and
the common advance follows (R180, R181, 90_conflicts.md C11). -/
def branchTo (taken : Bool) (target : Int) (s : State) : Applied :=
  { state := if taken then s.setReg .IP target else s, taken := taken }

/-- The check and `apply(IF)`: taken if the register equals `val` (R180). -/
def applyIf (reg val target : Int) (s : State) : Except Stop Applied :=
  match regOperand 0 reg with
  | .error e => .error e
  | .ok r => .ok (branchTo (takenIf (s.reg r) val) target s)

/-- IF (R180). -/
def execIf (reg val target : Int) (s : State) : Host.Outcome State Fault Refusal :=
  execAtOnce .IF (applyIf reg val target s) s

/-- The check and `apply(IFN)`: taken if the register differs from `val` (R181). -/
def applyIfn (reg val target : Int) (s : State) : Except Stop Applied :=
  match regOperand 0 reg with
  | .error e => .error e
  | .ok r => .ok (branchTo (takenIfn (s.reg r) val) target s)

/-- IFN (R181). -/
def execIfn (reg val target : Int) (s : State) : Host.Outcome State Fault Refusal :=
  execAtOnce .IFN (applyIfn reg val target s) s

end Sys2Proof.Machine
end

