-- ==== Sys2Proof/Machine/Transfer.lean ====
section
/-! DEFINITION. GLD and GPT (spec/46_stack_register_gld_gpt.md). Neither is staged. -/

namespace Sys2Proof.Machine

/-- The checks and `apply(GLD)`: the register is read before the push moves SP (R190, 40_dispatch.md R112). -/
def applyGld (reg : Int) (s : State) : Except Stop Applied :=
  match regOperand 0 reg with
  | .error e => .error e
  | .ok r => pushed (s.reg r) s

/-- GLD pushes the value of a register (R190). -/
def execGld (reg : Int) (s : State) : Host.Outcome State Fault Refusal :=
  execAtOnce .GLD (applyGld reg s) s

/-- The checks and `apply(GPT)`: the top is read without being popped (R191). -/
def applyGpt (reg : Int) (s : State) : Except Stop Applied :=
  match dstOperand 0 reg with
  | .error e => .error e
  | .ok r =>
    match peek 0 s with
    | .error e => .error e
    | .ok v => .ok (wroteReg r v s)

/-- GPT copies the top of the stack into a register (R191). -/
def execGpt (reg : Int) (s : State) : Host.Outcome State Fault Refusal :=
  execAtOnce .GPT (applyGpt reg s) s

end Sys2Proof.Machine
end

