-- ==== Sys2Proof/Machine/Dispatch.lean ====
section
/-! DEFINITION. The dispatch: one arm per row of spec/opcode_table.json, in the table's order. Each arm is `execute` of a decoded
opcode (spec/40_dispatch.md R100). -/

namespace Sys2Proof.Machine

def exec (i : Instr) (s : State) : Host.Outcome State Fault Refusal :=
  match i with
  | .hlt => Sys2Proof.Machine.execHlt s
  | .nop => Sys2Proof.Machine.execNop s
  | .psh val => Sys2Proof.Machine.execPsh val s
  | .pop => Sys2Proof.Machine.execPop s
  | .add => Sys2Proof.Machine.execAdd s
  | .sub => Sys2Proof.Machine.execSub s
  | .mul => Sys2Proof.Machine.execMul s
  | .div => Sys2Proof.Machine.execDiv s
  | .slt => Sys2Proof.Machine.execSlt s
  | .mov regA regB => Sys2Proof.Machine.execMov regA regB s
  | .set reg val => Sys2Proof.Machine.execSet reg val s
  | .log reg => Sys2Proof.Machine.execLog reg s
  | .if_ reg val target => Sys2Proof.Machine.execIf reg val target s
  | .ifn reg val target => Sys2Proof.Machine.execIfn reg val target s
  | .gld reg => Sys2Proof.Machine.execGld reg s
  | .gpt reg => Sys2Proof.Machine.execGpt reg s

end Sys2Proof.Machine
end

