-- ==== Sys2Proof/Machine/Protocol.lean ====
section
/-! DEFINITION. The commands of the block: `execute` with its opcode check, `commit` and `reset`
(spec/40_dispatch.md R100, R108, R109; 70_reset_and_hazards.md R230, R231), and one transaction on what the Driver presents. -/

namespace Sys2Proof.Machine

/-- `execute(op, a0, a1, a2)`: Busy in `AwaitingCommit` before anything is examined, then the opcode check, then the decoded
opcode (R100 to R102). -/
def runExecute (w : PortWord) (s : State) : Host.Outcome State Fault Refusal :=
  match s.engine with
  | .awaitingCommit _ => .next (reject .busy s)
  | .idle =>
    match decode w with
    | .ok i => exec i s
    | .error (.invalidOpcode op) => .next (raiseError (.raw op) (.invalidOpcode op) s)

/-- `apply` of the pending opcode (R108). -/
def applyPending (m : Staged) (s : State) : Except Stop Applied :=
  match m with
  | .pop => applyPop s
  | .add => applyAdd s
  | .sub => applySub s
  | .mul => applyMul s
  | .div => applyDiv s
  | .slt => applySlt s

/-- What the commit of a staged opcode consumes in `s`, with the checks of its precondition (R105, R115). -/
def consumedBy (m : Staged) (s : State) : Except Stop (List (Int × Int)) :=
  match m with
  | .pop => previewOne s
  | .add => previewTwo (twoOperands s) s
  | .sub => previewTwo (twoOperands s) s
  | .mul => previewTwo (twoOperands s) s
  | .div => previewTwo (divOperands s) s
  | .slt => previewTwo (twoOperands s) s

/-- `execute` of a staged opcode in a build with `STAGING = immediate`, which this hardware is not (R113). -/
def execImmediate (m : Staged) (s : State) : Host.Outcome State Fault Refusal :=
  execStagedWith .immediate m (consumedBy m s) (applyPending m s) s

/-- `commit`: the pending opcode is applied, IP advances, and the mode is `Idle` again; in `Idle` it is rejected (R108, R109). It cannot
raise; where the pending precondition is broken, which no reachable state shows, it faults. -/
def runCommit (s : State) : Host.Outcome State Fault Refusal :=
  match s.engine with
  | .idle => .next (reject .nothingPending s)
  | .awaitingCommit m =>
    match applyPending m s with
    | .ok a => .next { complete m.mnemonic a with engine := .idle }
    | .error (.raise _) => .fault (.pendingPreconditionBroken m)
    | .error (.fault f) => .fault f

/-- One command. -/
def runCommand (c : Command) (s : State) : Host.Outcome State Fault Refusal :=
  match c with
  | .execute w => runExecute w s
  | .commit => runCommit s

/-- One transaction on the presented ports: `reset` wins over a command presented with it, which is dropped without
response (70_reset_and_hazards.md R231); where neither is presented the block does nothing (00_scope.md R12). -/
def runPresented (p : Presented) (s : State) : Host.Outcome State Fault Refusal :=
  if p.reset then .next (resetBlock s)
  else match p.command with
    | none => .next (s.answer none [])
    | some c => runCommand c s

/-- The next transaction: the Driver's next presentation is taken from `input` and run. Where the Driver presents nothing
more, the block waits: it never steps on its own (00_scope.md R12). -/
def transact (s : State) : Host.Outcome State Fault Refusal :=
  match s.input with
  | [] => .next (s.answer none [])
  | p :: rest => runPresented p { s with input := rest }

/-- The Driver presents `p` for the next transaction. -/
def State.present (p : Presented) (s : State) : State := { s with input := p :: s.input }

/-- The Driver presents `execute` of the word `w`. -/
def executeOf (w : PortWord) : Presented := { reset := false, command := some (.execute w) }

/-- The Driver presents `commit`. -/
def commitOnly : Presented := { reset := false, command := some .commit }

/-- The Driver presents `reset`. -/
def resetOnly : Presented := { reset := true, command := none }

end Sys2Proof.Machine
end

