-- ==== Sys2Proof/Machine/Step.lean ====
section
/-! DEFINITION. One step of the model is one transaction (spec/00_scope.md R10, R12). The block has no fetch stage
(20_memory.md R50, R63): the next instruction is the one the Driver presents. -/

namespace Sys2Proof.Machine

/-- One transaction. -/
def step (s : State) : Host.Outcome State Fault Refusal := transact s

/-- `s` with the Driver presenting `execute` of the table word next. -/
def State.withFetchWord (s : State) (nbits w : Nat) : State := s.present (executeOf (tableWord nbits w))

end Sys2Proof.Machine
end

