-- ==== Sys2Proof/Machine/Catalog.lean ====
section
/-! DEFINITION. The Instruction Catalog and `getCatalog` (spec/30_encoding.md R81, R82), the names a string-keyed Driver
translates (R71), and the listing syntax (R80). Nothing here influences execution. -/

namespace Sys2Proof.Machine

/-- The name of a register (10_state.md R21). -/
def regName : Reg → String
  | .A => "A"
  | .B => "B"
  | .C => "C"
  | .D => "D"
  | .E => "E"
  | .F => "F"
  | .I => "I"
  | .J => "J"
  | .EX => "EX"
  | .EXA => "EXA"
  | .IP => "IP"
  | .SP => "SP"

/-- The name of a mnemonic (30_encoding.md R76). -/
def mnemonicName : Mnemonic → String
  | .HLT => "HLT"
  | .NOP => "NOP"
  | .PSH => "PSH"
  | .POP => "POP"
  | .ADD => "ADD"
  | .SUB => "SUB"
  | .MUL => "MUL"
  | .DIV => "DIV"
  | .SLT => "SLT"
  | .MOV => "MOV"
  | .SET => "SET"
  | .LOG => "LOG"
  | .IF => "IF"
  | .IFN => "IFN"
  | .GLD => "GLD"
  | .GPT => "GPT"

/-- The register a name stands for; a name outside the 12 has none (R71). -/
def regOfName (n : String) : Option Reg := Reg.all.find? fun r => decide (regName r = n)

/-- The mnemonic a name stands for; a name outside the 16 has none (R71). -/
def mnemonicOfName (n : String) : Option Mnemonic := Mnemonic.all.find? fun m => decide (mnemonicName m = n)

/-- The before/after stack-diagram hint frames of one opcode (R81). Their content is a free value: the spec gives none
(91_not_in_source.md N9, 93_implementation_defined.md U7). DESIGN CHOICE: a frame is a text (notes/assumptions/25.md). Safe. -/
structure HintFrames where
  before : String
  after : String
deriving DecidableEq, Repr

/-- An `OpcodeDefinition` (R81), with VMC's stack-effect column (R82) and the hint frames that the catalog exposes (R81). -/
structure OpcodeDefinition where
  id : Nat
  mnemonic : Mnemonic
  operandSignature : String
  stackEffect : String
  touchesStack : Bool
  operandByteCount : Nat
  effectDescription : String
  hintFrames : HintFrames
deriving DecidableEq, Repr

/-- The column operandSignature (R82). -/
def operandSignature : Mnemonic → String
  | .HLT => "-"
  | .NOP => "-"
  | .PSH => "val"
  | .POP => "-"
  | .ADD => "-"
  | .SUB => "-"
  | .MUL => "-"
  | .DIV => "-"
  | .SLT => "-"
  | .MOV => "regA, regB"
  | .SET => "reg, val"
  | .LOG => "reg"
  | .IF => "reg, val, target"
  | .IFN => "reg, val, target"
  | .GLD => "reg"
  | .GPT => "reg"

/-- VMC's column "Stack effect" (R82). -/
def stackEffect : Mnemonic → String
  | .HLT => "none"
  | .NOP => "none"
  | .PSH => "+1"
  | .POP => "-1"
  | .ADD => "-2,+1"
  | .SUB => "-2,+1"
  | .MUL => "-2,+1"
  | .DIV => "-2,+1"
  | .SLT => "-2,+1"
  | .MOV => "none"
  | .SET => "none"
  | .LOG => "none"
  | .IF => "none"
  | .IFN => "none"
  | .GLD => "+1"
  | .GPT => "none"

/-- The column touchesStack (R82; the spec's decision D24). -/
def touchesStack : Mnemonic → Bool
  | .HLT => false
  | .NOP => false
  | .PSH => true
  | .POP => true
  | .ADD => true
  | .SUB => true
  | .MUL => true
  | .DIV => true
  | .SLT => true
  | .MOV => false
  | .SET => false
  | .LOG => false
  | .IF => false
  | .IFN => false
  | .GLD => true
  | .GPT => true

/-- The column effectDescription (R82). -/
def effectDescription : Mnemonic → String
  | .HLT => "signals the caller to stop the run loop"
  | .NOP => "no state change"
  | .PSH => "push `val`"
  | .POP => "discard top value (value not surfaced)"
  | .ADD => "pop A, pop B, push B+A"
  | .SUB => "pop A, pop B, push B−A"
  | .MUL => "pop A, pop B, push B×A"
  | .DIV => "pop A, pop B, push trunc(B÷A)"
  | .SLT => "pop top, pop second, push 1 if second<top else 0"
  | .MOV => "`regB := regA`"
  | .SET => "`reg := val`"
  | .LOG => "emits register value to the observer (no state mutation)"
  | .IF => "if `reg == val`, `IP := target`; else `IP` advances past the 3 operand positions"
  | .IFN => "if `reg != val`, `IP := target`; else `IP` advances past operands"
  | .GLD => "push current value of `reg`"
  | .GPT => "`reg := top of stack` (stack NOT popped)"

/-- The hint frames of a mnemonic, free values of Config (R81, U7). -/
def hintFrames (m : Mnemonic) : HintFrames :=
  { before := Config.hintFrameBefore m.id
    after := Config.hintFrameAfter m.id }

/-- The catalog's row of a mnemonic. -/
def definitionOf (m : Mnemonic) : OpcodeDefinition :=
  { id := m.id
    mnemonic := m
    operandSignature := operandSignature m
    stackEffect := stackEffect m
    touchesStack := touchesStack m
    operandByteCount := m.operandByteCount
    effectDescription := effectDescription m
    hintFrames := hintFrames m }

/-- The static table, in id order (R81). -/
def catalog : List OpcodeDefinition := Mnemonic.all.map definitionOf

/-- The read-only query `getCatalog`: the same answer in every state, and no transaction (R70, R81). -/
def State.getCatalog (_ : State) : List OpcodeDefinition := catalog

/-- One operand in the listing syntax: a register by its name, another operand as a decimal integer (R80). None where a
register operand names no register. -/
def listOperand (k : OperandKind) (v : Int) : Option String :=
  match k with
  | .source => (Reg.ofNumber v).map regName
  | .destination => (Reg.ofNumber v).map regName
  | .val => some (toString v)
  | .target => some (toString v)

/-- Operands separated by a comma and a space (R80). -/
def listOperands : List (OperandKind × Int) → Option String
  | [] => some ""
  | [(k, v)] => listOperand k v
  | (k, v) :: rest =>
    match listOperand k v, listOperands rest with
    | some a, some b => some (a ++ ", " ++ b)
    | _, _ => none

/-- An instruction in the listing syntax: the mnemonic, and a space before its operands where it has any (R80). -/
def listing (i : Instr) : Option String :=
  match i.operands with
  | [] => some (mnemonicName i.mnemonic)
  | _ :: _ =>
    match listOperands (i.mnemonic.operandKinds.zip i.operands) with
    | some a => some (mnemonicName i.mnemonic ++ " " ++ a)
    | none => none

end Sys2Proof.Machine
end

