-- ==== Sys2Proof/Safety.lean ====
section
/-! DEFINITION. The invariants of the spec and the terms claims are stated in: the Stack invariant `INV`
(spec/10_state.md R30), the preconditions of the staged opcodes (40_dispatch.md R105), the invariant of the whole block
(R31, R33), what an instruction writes, and what it means that registers or cells are kept. -/

namespace Sys2Proof.Machine

/-- The Stack invariant `INV`, the one canonical form of the store: `-1 <= sp <= CAP-1` and exactly the cells `0..sp` are
occupied (R30). -/
abbrev State.INV (s : State) : Prop :=
  -1 ≤ s.sp ∧ s.sp ≤ (Config.cap : Int) - 1 ∧
    ∀ i : Fin Config.cap, (s.cell ((i : Nat) : Int)).isSome = decide (((i : Nat) : Int) ≤ s.sp)

/-- `pre(m)` of a staged opcode (40_dispatch.md R105). -/
def State.pre (s : State) (m : Staged) : Bool :=
  match m with
  | .pop => decide (0 ≤ s.sp)
  | .add => decide (1 ≤ s.sp)
  | .sub => decide (1 ≤ s.sp)
  | .mul => decide (1 ≤ s.sp)
  | .div => decide (1 ≤ s.sp ∧ s.cell s.sp ≠ some 0)
  | .slt => decide (1 ≤ s.sp)

/-- In `AwaitingCommit` the precondition of the pending opcode still holds (10_state.md R33). -/
def State.pendingPre (s : State) : Bool :=
  match s.engine with
  | .idle => true
  | .awaitingCommit m => s.pre m

/-- The invariant of the whole block (R31, R33). -/
abbrev State.Inv (s : State) : Prop := s.INV ∧ s.pendingPre = true

/-- The number of occupied cells. -/
def State.occupied (s : State) : Nat := s.cells.toList.countP Option.isSome

/-- Every register, every cell, the mode and `pending` are as before: the block is unchanged. -/
def State.SameBlock (s t : State) : Prop := t.regs = s.regs ∧ t.cells = s.cells ∧ t.engine = s.engine

/-- Every register but those listed is as before. -/
def State.KeepsRegsBut (s t : State) (rs : List Reg) : Prop := ∀ r, r ∉ rs → t.reg r = s.reg r

/-- Every cell but those with a listed index is as before. -/
def State.KeepsCellsBut (s t : State) (is : List Int) : Prop := ∀ i, i ∉ is → t.cell i = s.cell i

/-- The registers that an instruction applied at once writes by its operands or by a push, where it succeeds; the advance
writes IP besides. A staged opcode writes nothing at execute (10_state.md R27, 40_dispatch.md R107). -/
def written : Instr → List Reg
  | .hlt => []
  | .nop => []
  | .psh _ => [.SP]
  | .pop => []
  | .add => []
  | .sub => []
  | .mul => []
  | .div => []
  | .slt => []
  | .mov _ regB => (Reg.ofNumber regB).toList
  | .set reg _ => (Reg.ofNumber reg).toList
  | .log _ => []
  | .if_ _ _ _ => []
  | .ifn _ _ _ => []
  | .gld _ => [.SP]
  | .gpt reg => (Reg.ofNumber reg).toList

/-- The cells that an instruction applied at once writes in `s`, where it succeeds (20_memory.md R51). -/
def cellsWritten (s : State) : Instr → List Int
  | .hlt => []
  | .nop => []
  | .psh _ => [s.sp + 1]
  | .pop => []
  | .add => []
  | .sub => []
  | .mul => []
  | .div => []
  | .slt => []
  | .mov _ _ => []
  | .set _ _ => []
  | .log _ => []
  | .if_ _ _ _ => []
  | .ifn _ _ _ => []
  | .gld _ => [s.sp + 1]
  | .gpt _ => []

/-- The cells that the commit of a staged opcode writes in `s`, in ascending order (42_stack_psh_pop.md R141,
43_arithmetic.md R150). -/
def cellsCommitted (s : State) : Staged → List Int
  | .pop => [s.sp]
  | .add => [s.sp - 1, s.sp]
  | .sub => [s.sp - 1, s.sp]
  | .mul => [s.sp - 1, s.sp]
  | .div => [s.sp - 1, s.sp]
  | .slt => [s.sp - 1, s.sp]

/-- Neither the engine nor what the Driver presents next has changed. -/
def State.KeepsEngineAndInput (s t : State) : Prop := t.engine = s.engine ∧ t.input = s.input

/-- The transaction from `s` is answered with the error `e`, and the block is unchanged (60_exceptions.md R207). -/
def AnswersError (o : Host.Outcome State Fault Refusal) (s : State) (e : Error) : Prop :=
  ∃ t, o = .next t ∧ t.response = some (.error e) ∧ s.SameBlock t

/-- `t` is the announce of `m` from `s`: the Preview shows `consumed`, and only the mode and `pending` have changed
(40_dispatch.md R107, R115, R121). -/
def State.Announced (s t : State) (m : Staged) (consumed : List (Int × Int)) : Prop :=
  t.regs = s.regs ∧ t.cells = s.cells ∧ t.input = s.input ∧ t.pending = some m ∧ t.ready = false ∧
    t.response = some (.preview m.mnemonic consumed) ∧ t.events = []

/-- A binary stack opcode runs from `s`, whose two top values are `second` and `top`, and leaves `r` (43_arithmetic.md R150):
`execute` announces, and the commit presented next applies it, with its Result and events. -/
def BinaryRuns (i : Instr) (m : Staged) (s : State) (second top r : Int) : Prop :=
  ∃ t u, exec i s = .next t ∧ s.Announced t m [(s.sp, top), (s.sp - 1, second)] ∧
    step (t.present commitOnly) = .next u ∧
    u.mode = .idle ∧ u.input = s.input ∧ u.sp = s.sp - 1 ∧ u.pc = s.pc + 1 ∧
    u.cell (s.sp - 1) = some r ∧ u.cell s.sp = none ∧
    s.KeepsRegsBut u [.SP, .IP] ∧ s.KeepsCellsBut u [s.sp - 1, s.sp] ∧
    u.response = some (.result {
      changedRegisters := [(.SP, s.sp - 1)]
      changedStackCells := [(s.sp - 1, some r), (s.sp, none)]
      newIP := s.pc + 1
      halt := false }) ∧
    u.events = [.onLog (.mnemonic m.mnemonic) none false, .onRegisterChanged .SP (s.sp - 1),
      .onStackChanged (s.sp - 1) (some r), .onStackChanged s.sp none, .onIPChanged (s.pc + 1)]

end Sys2Proof.Machine
end

