-- ==== Sys2Proof/Certificates/Slice0/Obligations.lean ====
section
/-! DEFINITION. The statements for the provers, from the numbered rules of spec/. A docstring that names a decision D<n> of
spec/92_eei_decisions.md says that the clause is the spec's own choice, taken over by the model (notes/assumptions/). -/

open Sys2Proof Sys2Proof.Machine

/-! ## Reset and the invariant -/

/-- R38: the reset value of every piece of the block's state. -/
def Obligations.ResetIsTheBaseline : Prop :=
  (∀ r : Reg, r ≠ .SP → State.reset.reg r = 0) ∧ State.reset.reg .SP = -1 ∧
    (∀ i, State.reset.cell i = none) ∧ State.reset.mode = .idle ∧ State.reset.pending = none

/-- R31, R232: the invariant holds after reset, where nothing is pending and the entry point is 0. -/
def Obligations.ResetSatisfiesTheInvariant : Prop :=
  State.reset.Inv ∧ State.reset.pc = 0 ∧ State.reset.ready = true

/-- R31, R122: every transaction keeps `INV`, and in `AwaitingCommit` the pending opcode keeps its precondition (R33). -/
def Obligations.EveryStepKeepsTheInvariant : Prop :=
  ∀ s t : State, s.Inv → step s = .next t → t.Inv

/-- R122, R70, R12: from a state with the invariant every presentation is answered. Nothing stops the block, one presentation is one
transaction, and a command gets a response unless reset is presented with it (D19). -/
def Obligations.EveryPresentationIsAnswered : Prop :=
  ∀ (s : State) (p : Presented) (rest : List Presented), s.Inv → s.input = p :: rest →
    ∃ t, step s = .next t ∧ t.input = rest ∧
      (t.response.isSome = true ↔ p.reset = false ∧ p.command.isSome = true)

/-- R12: the block never steps on its own. With nothing presented it is unchanged and gives no output (notes/assumptions/1.md). -/
def Obligations.NothingHappensWithoutACommand : Prop :=
  (∀ s : State, s.input = [] → ∃ t, step s = .next t ∧ s.SameBlock t ∧ t.input = [] ∧ t.response = none ∧ t.events = []) ∧
  (∀ (s : State) (rest : List Presented), s.input = ⟨false, none⟩ :: rest →
    ∃ t, step s = .next t ∧ s.SameBlock t ∧ t.input = rest ∧ t.response = none ∧ t.events = [])

/-- R230, with R231 for the outputs and for a command presented together with reset (D19): from any state, with the
invariant or without, reset gives the baseline, and a pending commit is discarded. -/
def Obligations.ResetFromAnyStateGivesTheBaseline : Prop :=
  ∀ (s : State) (c : Option Command),
    ∃ t, step (s.present ⟨true, c⟩) = .next t ∧
      (∀ r : Reg, t.reg r = if r = .SP then -1 else 0) ∧ (∀ i, t.cell i = none) ∧
      t.mode = .idle ∧ t.pending = none ∧ t.input = s.input ∧ t.response = none ∧ t.events = [] ∧
      ∃ u, step (t.present commitOnly) = .next u ∧ u.response = some (.rejected .nothingPending) ∧ t.SameBlock u

/-! ## Errors, rejections, events -/

/-- R207: after an Error every register, every cell, the mode and `pending` are as before, and the mode is `Idle`. -/
def Obligations.ErrorsLeaveNoTrace : Prop :=
  ∀ (s t : State) (e : Error), step s = .next t → t.response = some (.error e) → s.SameBlock t ∧ t.mode = .idle

/-- R210: presenting the command that raised an error again gives the same error, in the same state. -/
def Obligations.ErrorsRepeat : Prop :=
  ∀ (s t : State) (w : PortWord) (e : Error), step (s.present (executeOf w)) = .next t → t.response = some (.error e) →
    step (t.present (executeOf w)) = .next t

/-- R117, R122: a rejected command changes nothing, and `Busy` is the answer to an execute in `AwaitingCommit`,
`NothingPending` to a commit in `Idle` (D10, D11). -/
def Obligations.RejectionsChangeNothing : Prop :=
  ∀ (s t : State) (reason : RejectReason), step s = .next t → t.response = some (.rejected reason) →
    s.SameBlock t ∧
      (reason = .busy → s.mode = .awaitingCommit ∧ ∃ w rest, s.input = executeOf w :: rest) ∧
      (reason = .nothingPending → s.mode = .idle ∧ ∃ rest, s.input = commitOnly :: rest)

/-- R101 (D10): in `AwaitingCommit` every execute, of any opcode byte and operands, is answered Busy without effect. -/
def Obligations.ExecuteWhileAwaitingCommitIsBusy : Prop :=
  ∀ (s : State) (m : Staged), s.pending = some m →
    (∀ w : PortWord, ∃ t, step (s.present (executeOf w)) = .next t ∧ s.SameBlock t ∧ t.input = s.input ∧
      t.response = some (.rejected .busy) ∧ t.events = []) ∧
    (∀ i : Instr, ∃ t, exec i s = .next t ∧ s.SameBlock t ∧ t.response = some (.rejected .busy) ∧ t.events = [])

/-- R33, R101 (D10): an execute turned away between announce and commit does not change what the commit does. -/
def Obligations.BusyExecuteDoesNotDisturbTheCommit : Prop :=
  ∀ (s t : State) (w : PortWord), s.mode = .awaitingCommit → step (s.present (executeOf w)) = .next t →
    step (t.present commitOnly) = step (s.present commitOnly)

/-- R109 (D11): a commit in `Idle` is answered NothingPending without effect. -/
def Obligations.CommitInIdleIsRejected : Prop :=
  ∀ s : State, s.mode = .idle →
    ∃ t, step (s.present commitOnly) = .next t ∧ s.SameBlock t ∧ t.input = s.input ∧
      t.response = some (.rejected .nothingPending) ∧ t.events = []

/-- R120: an error emits exactly one `onLog` with `isError`, named by the mnemonic, or by the raw byte of an invalid
opcode. -/
def Obligations.ErrorEmitsExactlyOneLog : Prop :=
  ∀ (s t : State) (w : PortWord) (e : Error), step (s.present (executeOf w)) = .next t → t.response = some (.error e) →
    t.events = [.onLog (match Mnemonic.ofOpcode w.op with
      | some m => .mnemonic m
      | none => .raw w.op) none true]

/-- R119 (the order and the one `onLog` are D17): the events of a success follow its Result. -/
def Obligations.SuccessEventsFollowTheResult : Prop :=
  ∀ (s t : State) (r : Result), step s = .next t → t.response = some (.result r) →
    ∃ m detail,
      ((∃ w rest, s.input = executeOf w :: rest ∧ Mnemonic.ofOpcode w.op = some m ∧ m.staged = none) ∨
        (∃ k rest, s.input = commitOnly :: rest ∧ s.pending = some k ∧ m = k.mnemonic)) ∧
      (m ≠ .LOG → detail = none) ∧
      t.events = [.onLog (.mnemonic m) detail false]
        ++ r.changedRegisters.map (fun p => .onRegisterChanged p.1 p.2)
        ++ r.changedStackCells.map (fun p => .onStackChanged p.1 p.2)
        ++ (if m = .HLT then [] else [.onIPChanged r.newIP])

/-- R121 (D17, D19): only a Result and an Error come with events. -/
def Obligations.NoEventsWithoutResultOrError : Prop :=
  ∀ s t : State, step s = .next t → t.events ≠ [] →
    (∃ r, t.response = some (.result r)) ∨ (∃ e, t.response = some (.error e))

/-- R114, R216 (the exact contents are D16, the `halt` field D8): the Result lists exactly the registers other than IP and the
cells that the transaction wrote, once each and in ascending order, whether or not the value differs from the old, with the final
value; everything it does not list is as before. -/
def Obligations.ResultReportsEveryWrite : Prop :=
  ∀ (s t : State) (r : Result), step s = .next t → t.response = some (.result r) →
    (∀ w i rest, s.input = executeOf w :: rest → decode w = .ok i →
      r.changedRegisters.map Prod.fst = (written i).filter (fun q => decide (q ≠ .IP)) ∧
      r.changedStackCells.map Prod.fst = cellsWritten s i) ∧
    (∀ m rest, s.input = commitOnly :: rest → s.pending = some m →
      r.changedRegisters.map Prod.fst = [.SP] ∧ r.changedStackCells.map Prod.fst = cellsCommitted s m) ∧
    (∀ q v, (q, v) ∈ r.changedRegisters → q ≠ .IP ∧ t.reg q = v) ∧
    (∀ q, q ≠ .IP → q ∉ r.changedRegisters.map Prod.fst → t.reg q = s.reg q) ∧
    (∀ i c, (i, c) ∈ r.changedStackCells → t.cell i = c) ∧
    (∀ i, i ∉ r.changedStackCells.map Prod.fst → t.cell i = s.cell i) ∧
    r.changedRegisters.Pairwise (fun a b => a.1.number < b.1.number) ∧
    r.changedStackCells.Pairwise (fun a b => a.1 < b.1) ∧
    r.newIP = t.pc ∧ t.mode = .idle ∧ (r.halt = true → s.SameBlock t)

/-- R118: events and responses never feed back: a step does not read what the last one answered. -/
def Obligations.OutputsNeverFeedBack : Prop :=
  ∀ (s : State) (response : Option Response) (events : List Event), step (s.answer response events) = step s

/-! ## Decode and encode -/

/-- R100: where the presented word decodes, the step in `Idle` and in `AwaitingCommit` is `exec` of the decoded instruction at the state
with the presentation taken off. -/
def Obligations.StepRunsTheDecodedInstruction : Prop :=
  ∀ (s : State) (w : PortWord) (i : Instr) (rest : List Presented), s.input = executeOf w :: rest → decode w = .ok i →
    step s = exec i { s with input := rest }

/-- R76 (D2): words written out from the opcode map, at least one of each family, decode to their instructions. -/
def Obligations.SampleWordsDecode : Prop :=
  decode ⟨0b00000001#8, 99, -4, 12⟩ = .ok .nop ∧
  decode ⟨0b00000010#8, 5, 0, 0⟩ = .ok (.psh 5) ∧
  decode ⟨0b00000101#8, 0, 0, 0⟩ = .ok .sub ∧
  decode ⟨0b00001001#8, 0, 3, 0⟩ = .ok (.mov 0 3) ∧
  decode ⟨0b00001101#8, 0, 0, 3⟩ = .ok (.ifn 0 0 3) ∧
  decode ⟨0b00001111#8, 9, 0, 0⟩ = .ok (.gpt 9) ∧
  decode ⟨0b00010010#8, 12, 0, 0⟩ = .error (.invalidOpcode 18)

/-- R74, R76 (D2, D4): the decoder accepts exactly the opcode bytes 0 to 15, and the byte is then the opcode id. -/
def Obligations.DecoderAcceptsExactlyTheSixteenIds : Prop :=
  ∀ w : PortWord,
    ((∃ i, decode w = .ok i) ↔ w.op.toNat ≤ 15) ∧
    (∀ i, decode w = .ok i → i.mnemonic.id = w.op.toNat) ∧
    (∀ e, decode w = .error e → e = .invalidOpcode w.op)

/-- R77 (D4): ports beyond the opcode's format are not read. -/
def Obligations.UnusedPortsAreIgnored : Prop :=
  ∀ (w w' : PortWord) (m : Mnemonic), w'.op = w.op → Mnemonic.ofOpcode w.op = some m →
    (1 ≤ m.operandByteCount → w'.a0 = w.a0) → (2 ≤ m.operandByteCount → w'.a1 = w.a1) →
    (3 ≤ m.operandByteCount → w'.a2 = w.a2) → decode w' = decode w

/-- R76, R75, R77 (unused ports carry 0, notes/assumptions/17.md): decoding the word that presents an instruction gives the instruction back, every operand at every value. -/
def Obligations.DecodeOfEncode : Prop :=
  ∀ i : Instr, decode (encode i) = .ok i

/-- R79, R73 (the program form is test apparatus, D26): the positions of an instruction in a program are as many as its length, and a Driver reads the instruction back from
them, whatever follows. -/
def Obligations.ProgramPositionsReadBack : Prop :=
  ∀ (i : Instr) (before rest : List Int),
    i.positions.length = i.mnemonic.len ∧
      programAt (before ++ i.positions ++ rest) (before.length : Int) = some (i, rest)

/-- R102, R206: an opcode byte above 15 raises `InvalidOpcode` with that byte, whatever the operands, and no other byte does. -/
def Obligations.InvalidOpcodeIsRaisedExactlyAbove15 : Prop :=
  ∀ (s : State) (w : PortWord), s.mode = .idle →
    (16 ≤ w.op.toNat → AnswersError (step (s.present (executeOf w))) s (.invalidOpcode w.op)) ∧
    (∀ op, AnswersError (step (s.present (executeOf w))) s (.invalidOpcode op) → 16 ≤ w.op.toNat ∧ op = w.op)

/-! ## Stack primitives -/

/-- R56: `push`. -/
def Obligations.PushStoresAtTheNewTop : Prop :=
  ∀ (v : Int) (s : State), s.INV →
    (s.sp = (Config.cap : Int) - 1 → push v s = .error (.raise .stackOverflow)) ∧
    (s.sp ≠ (Config.cap : Int) - 1 → ∃ t, push v s = .ok t ∧
      t.sp = s.sp + 1 ∧ s.cell (s.sp + 1) = none ∧ t.cell t.sp = some v ∧
      s.KeepsRegsBut t [.SP] ∧ s.KeepsCellsBut t [s.sp + 1] ∧ s.KeepsEngineAndInput t)

/-- R57: `pop`. -/
def Obligations.PopReturnsAndEmptiesTheTop : Prop :=
  ∀ s : State, s.INV →
    (s.sp = -1 → pop s = .error (.raise .stackUnderflow)) ∧
    (s.sp ≠ -1 → ∃ v t, pop s = .ok (v, t) ∧ s.cell s.sp = some v ∧ t.cell s.sp = none ∧ t.sp = s.sp - 1 ∧
      s.KeepsRegsBut t [.SP] ∧ s.KeepsCellsBut t [s.sp] ∧ s.KeepsEngineAndInput t)

/-- R58 (an index above the last cell is D22): `peek` gives the addressed value or raises `StackUnderflow`; under `INV`, `peek(0)` fails exactly on the empty stack and
`peek(1)` exactly where there are fewer than two values. -/
def Obligations.PeekFailsExactlyWithoutAValue : Prop :=
  ∀ (s : State) (k : Int),
    (∀ v, peek k s = .ok v ↔ s.cell (s.sp - k) = some v) ∧
    (∀ e, peek k s = .error e → e = .raise .stackUnderflow) ∧
    (s.INV → (peek 0 s = .error (.raise .stackUnderflow) ↔ s.sp = -1)) ∧
    (s.INV → (peek 1 s = .error (.raise .stackUnderflow) ↔ s.sp ≤ 0))

/-- R59: a push that does not raise, followed by a pop, returns the value and restores the whole state. -/
def Obligations.PopUndoesPush : Prop :=
  ∀ (v : Int) (s t : State), s.INV → push v s = .ok t → pop t = .ok (v, s)

/-- R60, R150: the effect of a binary stack opcode is "pop, pop, push", and none of the three can fail where two cells
are occupied. -/
def Obligations.BinaryEffectIsPopPopPush : Prop :=
  ∀ (f : Int → Int → Int) (s : State), s.INV → 1 ≤ s.sp →
    ∃ top second s₁ s₂ s₃, pop s = .ok (top, s₁) ∧ pop s₁ = .ok (second, s₂) ∧ push (f second top) s₂ = .ok s₃ ∧
      applyBinary f (twoOperands s) s = .ok { state := s₃, regs := [.SP], cells := [s.sp - 1, s.sp] }

/-! ## Instructions -/

/-- R130 (`pc` unchanged and the form of the halt signal are D8): HLT changes no state, signals halt, and a later execute runs as if
HLT had not been. -/
def Obligations.HltOnlySignals : Prop :=
  ∀ s : State, s.mode = .idle →
    ∃ t, exec .hlt s = .next t ∧ s.SameBlock t ∧ t.input = s.input ∧
      t.response = some (.result { changedRegisters := [], changedStackCells := [], newIP := s.pc, halt := true }) ∧
      t.events = [.onLog (.mnemonic .HLT) none false] ∧
      ∀ w, step (t.present (executeOf w)) = step (s.present (executeOf w))

/-- R131 (the opcode number is D2, the Result and events D16, D17): NOP changes nothing but the instruction pointer, which advances by 1; it is opcode 1, of length 1, and ignores
its ports. -/
def Obligations.NopOnlyAdvancesPc : Prop :=
  (∀ a0 a1 a2, decode ⟨1, a0, a1, a2⟩ = .ok .nop) ∧ Mnemonic.NOP.len = 1 ∧
  ∀ s : State, s.mode = .idle →
    ∃ t, exec .nop s = .next t ∧ t.pc = s.pc + 1 ∧ s.KeepsRegsBut t [.IP] ∧ s.KeepsCellsBut t [] ∧
      s.KeepsEngineAndInput t ∧
      t.response = some (.result { changedRegisters := [], changedStackCells := [], newIP := s.pc + 1, halt := false }) ∧
      t.events = [.onLog (.mnemonic .NOP) none false, .onIPChanged (s.pc + 1)]

/-- R140 (the opcode number is D2, the Result and events D16, D17): PSH pushes its operand, any integer, or raises `StackOverflow` on the full stack; it is opcode 2, of length
2, and reads port `a0` only. -/
def Obligations.PshPushesItsOperand : Prop :=
  (∀ val a1 a2, decode ⟨2, val, a1, a2⟩ = .ok (.psh val)) ∧ Mnemonic.PSH.len = 2 ∧
  ∀ (s : State) (val : Int), s.INV → s.mode = .idle →
    (s.sp = (Config.cap : Int) - 1 → AnswersError (exec (.psh val) s) s .stackOverflow) ∧
    (s.sp ≠ (Config.cap : Int) - 1 →
      ∃ t, exec (.psh val) s = .next t ∧ t.sp = s.sp + 1 ∧ t.cell (s.sp + 1) = some val ∧ t.pc = s.pc + 2 ∧
        s.KeepsRegsBut t [.SP, .IP] ∧ s.KeepsCellsBut t [s.sp + 1] ∧ s.KeepsEngineAndInput t ∧
        t.response = some (.result {
          changedRegisters := [(.SP, s.sp + 1)]
          changedStackCells := [(s.sp + 1, some val)]
          newIP := s.pc + 2
          halt := false }) ∧
        t.events = [.onLog (.mnemonic .PSH) none false, .onRegisterChanged .SP (s.sp + 1),
          .onStackChanged (s.sp + 1) (some val), .onIPChanged (s.pc + 2)])

/-- R190 (the value is read before the push moves SP, D14): GLD pushes the value of any of the 12 registers, or raises `StackOverflow`. -/
def Obligations.GldPushesARegister : Prop :=
  ∀ (s : State) (r : Reg), s.INV → s.mode = .idle →
    (s.sp = (Config.cap : Int) - 1 → AnswersError (exec (.gld r.number) s) s .stackOverflow) ∧
    (s.sp ≠ (Config.cap : Int) - 1 →
      ∃ t, exec (.gld r.number) s = .next t ∧ t.sp = s.sp + 1 ∧ t.cell (s.sp + 1) = some (s.reg r) ∧ t.pc = s.pc + 2 ∧
        s.KeepsRegsBut t [.SP, .IP] ∧ s.KeepsCellsBut t [s.sp + 1] ∧ s.KeepsEngineAndInput t ∧
        t.response = some (.result {
          changedRegisters := [(.SP, s.sp + 1)]
          changedStackCells := [(s.sp + 1, some (s.reg r))]
          newIP := s.pc + 2
          halt := false }) ∧
        t.events = [.onLog (.mnemonic .GLD) none false, .onRegisterChanged .SP (s.sp + 1),
          .onStackChanged (s.sp + 1) (some (s.reg r)), .onIPChanged (s.pc + 2)])

/-- R191, R111 (a write to IP is followed by the advance, D7): GPT copies the top into a register other than SP
without popping, or raises `StackUnderflow` on the empty stack. -/
def Obligations.GptCopiesTheTop : Prop :=
  ∀ (s : State) (r : Reg), s.INV → s.mode = .idle → r ≠ .SP →
    (s.sp = -1 → AnswersError (exec (.gpt r.number) s) s .stackUnderflow) ∧
    (∀ v, s.cell s.sp = some v →
      ∃ t, exec (.gpt r.number) s = .next t ∧ (r ≠ .IP → t.reg r = v) ∧
        t.pc = (if r = .IP then v else s.pc) + 2 ∧
        s.KeepsRegsBut t [r, .IP] ∧ s.KeepsCellsBut t [] ∧ s.KeepsEngineAndInput t ∧
        t.response = some (.result {
          changedRegisters := if r = .IP then [] else [(r, v)]
          changedStackCells := []
          newIP := t.pc
          halt := false }) ∧
        t.events = [.onLog (.mnemonic .GPT) none false] ++ (if r = .IP then [] else [.onRegisterChanged r v])
          ++ [.onIPChanged t.pc])

/-- R170, R111 (D7): MOV copies the first register into the second, which is not SP. -/
def Obligations.MovCopiesARegister : Prop :=
  ∀ (s : State) (a b : Reg), s.mode = .idle → b ≠ .SP →
    ∃ t, exec (.mov a.number b.number) s = .next t ∧ (b ≠ .IP → t.reg b = s.reg a) ∧
      t.pc = (if b = .IP then s.reg a else s.pc) + 3 ∧
      s.KeepsRegsBut t [b, .IP] ∧ s.KeepsCellsBut t [] ∧ s.KeepsEngineAndInput t ∧
      t.response = some (.result {
        changedRegisters := if b = .IP then [] else [(b, s.reg a)]
        changedStackCells := []
        newIP := t.pc
        halt := false }) ∧
      t.events = [.onLog (.mnemonic .MOV) none false] ++ (if b = .IP then [] else [.onRegisterChanged b (s.reg a)])
        ++ [.onIPChanged t.pc]

/-- R171, R111 (D7): SET loads a constant of any size into a register other than SP. -/
def Obligations.SetLoadsAConstant : Prop :=
  ∀ (s : State) (r : Reg) (val : Int), s.mode = .idle → r ≠ .SP →
    ∃ t, exec (.set r.number val) s = .next t ∧ (r ≠ .IP → t.reg r = val) ∧
      t.pc = (if r = .IP then val else s.pc) + 3 ∧
      s.KeepsRegsBut t [r, .IP] ∧ s.KeepsCellsBut t [] ∧ s.KeepsEngineAndInput t ∧
      t.response = some (.result {
        changedRegisters := if r = .IP then [] else [(r, val)]
        changedStackCells := []
        newIP := t.pc
        halt := false }) ∧
      t.events = [.onLog (.mnemonic .SET) none false] ++ (if r = .IP then [] else [.onRegisterChanged r val])
        ++ [.onIPChanged t.pc]

/-- R172 (one `onLog` with the register and its value is D27): LOG reports any of the 12 registers and changes no register but IP, and no cell. -/
def Obligations.LogReportsARegister : Prop :=
  ∀ (s : State) (r : Reg), s.mode = .idle →
    ∃ t, exec (.log r.number) s = .next t ∧ t.pc = s.pc + 2 ∧
      s.KeepsRegsBut t [.IP] ∧ s.KeepsCellsBut t [] ∧ s.KeepsEngineAndInput t ∧
      t.response = some (.result { changedRegisters := [], changedStackCells := [], newIP := s.pc + 2, halt := false }) ∧
      t.events = [.onLog (.mnemonic .LOG) (some (r, s.reg r)) false, .onIPChanged (s.pc + 2)]

/-- R180, R181 (the advance by 4 is D23): of IF and IFN with the same operands exactly one is taken. The taken one sets `pc` to the
target, any integer; the other advances by 4; nothing else changes. -/
def Obligations.IfAndIfnBranchOppositely : Prop :=
  ∀ (s : State) (r : Reg) (val target : Int), s.mode = .idle →
    ∃ t u, exec (.if_ r.number val target) s = .next t ∧ exec (.ifn r.number val target) s = .next u ∧
      t.pc = (if s.reg r = val then target else s.pc + 4) ∧ u.pc = (if s.reg r = val then s.pc + 4 else target) ∧
      s.KeepsRegsBut t [.IP] ∧ s.KeepsRegsBut u [.IP] ∧ s.KeepsCellsBut t [] ∧ s.KeepsCellsBut u [] ∧
      s.KeepsEngineAndInput t ∧ s.KeepsEngineAndInput u ∧
      t.response = some (.result { changedRegisters := [], changedStackCells := [], newIP := t.pc, halt := false }) ∧
      u.response = some (.result { changedRegisters := [], changedStackCells := [], newIP := u.pc, halt := false }) ∧
      t.events = [.onLog (.mnemonic .IF) none false, .onIPChanged t.pc] ∧
      u.events = [.onLog (.mnemonic .IFN) none false, .onIPChanged u.pc]

/-- R141 with R107 (the check at the announce is D9, the Preview D28): POP is announced, and its commit empties the top cell. -/
def Obligations.PopDiscardsTheTopAtCommit : Prop :=
  ∀ s : State, s.INV → s.mode = .idle →
    (s.sp = -1 → AnswersError (exec .pop s) s .stackUnderflow) ∧
    (∀ v, s.cell s.sp = some v →
      ∃ t u, exec .pop s = .next t ∧ s.Announced t .pop [(s.sp, v)] ∧
        step (t.present commitOnly) = .next u ∧
        u.mode = .idle ∧ u.input = s.input ∧ u.sp = s.sp - 1 ∧ u.pc = s.pc + 1 ∧ u.cell s.sp = none ∧
        s.KeepsRegsBut u [.SP, .IP] ∧ s.KeepsCellsBut u [s.sp] ∧
        u.response = some (.result {
          changedRegisters := [(.SP, s.sp - 1)]
          changedStackCells := [(s.sp, none)]
          newIP := s.pc + 1
          halt := false }) ∧
        u.events = [.onLog (.mnemonic .POP) none false, .onRegisterChanged .SP (s.sp - 1),
          .onStackChanged s.sp none, .onIPChanged (s.pc + 1)])

/-- R151, R152, R153, R155 over R150 (no register but SP and IP is touched, D13): ADD, SUB, MUL and SLT, announced and committed. -/
def Obligations.AddSubMulSltLeaveTheirResult : Prop :=
  ∀ (s : State) (second top : Int), s.INV → s.mode = .idle → 1 ≤ s.sp →
    s.cell (s.sp - 1) = some second → s.cell s.sp = some top →
    BinaryRuns .add .add s second top (second + top) ∧
    BinaryRuns .sub .sub s second top (second - top) ∧
    BinaryRuns .mul .mul s second top (second * top) ∧
    BinaryRuns .slt .slt s second top (if second < top then 1 else 0)

/-- R154 with R5 (rounding toward zero is the spec's G1): DIV by a nonzero top leaves the quotient whose remainder is smaller than the divisor and has
the dividend's sign; a zero divisor raises `DivideByZero`. -/
def Obligations.DivLeavesTheTruncatedQuotient : Prop :=
  ∀ (s : State) (second top : Int), s.INV → s.mode = .idle → 1 ≤ s.sp →
    s.cell (s.sp - 1) = some second → s.cell s.sp = some top →
    (top = 0 → AnswersError (exec .div s) s .divideByZero) ∧
    (top ≠ 0 → ∃ q r, BinaryRuns .div .div s second top q ∧
      second = top * q + r ∧ r.natAbs < top.natAbs ∧ (r = 0 ∨ r.sign = second.sign))

/-! ## When each error is raised -/

/-- R202 (a register operand of GLD that names no register comes first, R106): `StackOverflow` is raised by PSH and GLD exactly when the stack holds `CAP` values. -/
def Obligations.StackOverflowExactlyWhenFull : Prop :=
  ∀ (i : Instr) (s : State), s.INV → s.mode = .idle →
    (AnswersError (exec i s) s .stackOverflow ↔
      s.sp = (Config.cap : Int) - 1 ∧ ((∃ v, i = .psh v) ∨ ∃ r, i = .gld r ∧ namesRegister r = true))

/-- R203 (an illegal register operand of GPT comes first, R106): `StackUnderflow` is raised by POP and GPT on the empty stack and by the binary opcodes when fewer than two cells are occupied. -/
def Obligations.StackUnderflowExactlyWhenTooFew : Prop :=
  ∀ (i : Instr) (s : State), s.INV → s.mode = .idle →
    (AnswersError (exec i s) s .stackUnderflow ↔
      (s.sp = -1 ∧ (i = .pop ∨ ∃ r, i = .gpt r ∧ namesDestination r = true)) ∨
      (s.sp ≤ 0 ∧ (i = .add ∨ i = .sub ∨ i = .mul ∨ i = .div ∨ i = .slt)))

/-- R204: `DivideByZero` is raised by DIV only, when two operands exist and the top one is 0. -/
def Obligations.DivideByZeroExactlyOnAZeroDivisor : Prop :=
  ∀ (i : Instr) (s : State), s.INV → s.mode = .idle →
    (AnswersError (exec i s) s .divideByZero ↔ i = .div ∧ 1 ≤ s.sp ∧ s.cell s.sp = some 0)

/-- R103, R104, R205 (SP as a destination is D6, the port order D12, the payload D18): `InvalidRegister` is raised exactly for the instructions that are not well-formed, and records the first offending port and
its value. -/
def Obligations.InvalidRegisterExactlyWhenIllFormed : Prop :=
  ∀ s : State, s.mode = .idle →
    (∀ i : Instr, (∃ port a, AnswersError (exec i s) s (.invalidRegister port a)) ↔ i.wellFormed = false) ∧
    (∀ a b, namesRegister a = false → AnswersError (exec (.mov a b) s) s (.invalidRegister 0 a)) ∧
    (∀ a b, namesRegister a = true → namesDestination b = false →
      AnswersError (exec (.mov a b) s) s (.invalidRegister 1 b)) ∧
    (∀ a v, namesDestination a = false → AnswersError (exec (.set a v) s) s (.invalidRegister 0 a) ∧
      AnswersError (exec (.gpt a) s) s (.invalidRegister 0 a)) ∧
    (∀ a v w, namesRegister a = false → AnswersError (exec (.log a) s) s (.invalidRegister 0 a) ∧
      AnswersError (exec (.if_ a v w) s) s (.invalidRegister 0 a) ∧
      AnswersError (exec (.ifn a v w) s) s (.invalidRegister 0 a) ∧
      AnswersError (exec (.gld a) s) s (.invalidRegister 0 a))

/-! ## Frames and whole-machine rules -/

/-- R27, R51 (SP as a destination is D6): HLT, NOP, MOV, SET, LOG, IF, IFN and GPT leave every cell and the engine alone, and every register but IP and the destination. -/
def Obligations.RegisterFormsKeepTheStack : Prop :=
  ∀ (i : Instr) (s t : State), exec i s = .next t →
    ((i = .hlt ∨ i = .nop ∨ (∃ a, i = .log a) ∨ (∃ a v w, i = .if_ a v w) ∨ ∃ a v w, i = .ifn a v w) →
      s.KeepsRegsBut t [.IP] ∧ s.KeepsCellsBut t [] ∧ s.KeepsEngineAndInput t) ∧
    (∀ r : Reg, ((∃ a, i = .mov a r.number) ∨ (∃ v, i = .set r.number v) ∨ i = .gpt r.number) →
      s.KeepsRegsBut t (if r = .SP then [] else [r, .IP]) ∧ s.KeepsCellsBut t [] ∧ s.KeepsEngineAndInput t)

/-- R27, R56: PSH and GLD leave every register but SP and IP, every cell but `cell[sp+1]` and the engine alone. -/
def Obligations.PushingFormsFrame : Prop :=
  ∀ (i : Instr) (s t : State), ((∃ v, i = .psh v) ∨ ∃ r, i = .gld r) → exec i s = .next t →
    s.KeepsRegsBut t [.SP, .IP] ∧ s.KeepsCellsBut t [s.sp + 1] ∧ s.KeepsEngineAndInput t

/-- R107 (D9): the execute of a staged opcode changes no register and no cell; at most the mode and `pending`. -/
def Obligations.StagedExecuteChangesOnlyTheMode : Prop :=
  ∀ (i : Instr) (m : Staged) (s t : State), i.mnemonic.staged = some m → exec i s = .next t →
    s.KeepsRegsBut t [] ∧ s.KeepsCellsBut t [] ∧ t.input = s.input ∧ (t.engine = s.engine ∨ t.pending = some m)

/-- R27, R108, R150 (no other register is touched, D13): a commit leaves every register but SP and IP and every cell but the consumed ones alone; POP's commit
also leaves the cell below the top. -/
def Obligations.CommitFrame : Prop :=
  ∀ (s t : State) (rest : List Presented), s.input = commitOnly :: rest → step s = .next t →
    s.KeepsRegsBut t [.SP, .IP] ∧ s.KeepsCellsBut t [s.sp - 1, s.sp] ∧ t.input = rest ∧ t.mode = .idle ∧
      (s.pending = some .pop → s.KeepsCellsBut t [s.sp])

/-- R24, R27 (D13, D15): no transaction but reset changes a register other than IP and SP, EX and EXA included, unless it is a MOV, SET or GPT that
names it as destination. -/
def Obligations.OnlyNamedDestinationsAreWritten : Prop :=
  ∀ (s t : State) (p : Presented) (rest : List Presented) (r : Reg), s.input = p :: rest → p.reset = false →
    step s = .next t → r ≠ .IP → r ≠ .SP → t.reg r ≠ s.reg r →
    ∃ w i, p.command = some (.execute w) ∧ decode w = .ok i ∧
      ((∃ a, i = .mov a r.number) ∨ (∃ v, i = .set r.number v) ∨ i = .gpt r.number)

/-- R26 (SP is no destination, D6): SP moves only by the Stack primitives, up by 1 in a PSH or GLD and down by 1 in a commit. -/
def Obligations.SpMovesOnlyByPushAndPop : Prop :=
  ∀ (s t : State) (p : Presented) (rest : List Presented), s.input = p :: rest → p.reset = false →
    step s = .next t → t.sp ≠ s.sp →
    (t.sp = s.sp + 1 ∧ ∃ w i, p.command = some (.execute w) ∧ decode w = .ok i ∧
      ((∃ v, i = .psh v) ∨ ∃ r, i = .gld r)) ∨
    (t.sp = s.sp - 1 ∧ p.command = some .commit ∧ s.mode = .awaitingCommit)

/-- R32, R107 (D9): `AwaitingCommit` is entered only by the execute of a staged opcode that is answered with its Preview, and left only at commit or reset. -/
def Obligations.ModeChangesOnlyByAnnounceCommitReset : Prop :=
  ∀ (s t : State) (p : Presented) (rest : List Presented), s.input = p :: rest → step s = .next t →
    (∀ m, t.pending = some m → s.pending = some m ∨
      (s.mode = .idle ∧ p.reset = false ∧ ∃ w i c, p.command = some (.execute w) ∧ decode w = .ok i ∧
        i.mnemonic = m.mnemonic ∧ t.response = some (.preview m.mnemonic c))) ∧
    (s.mode = .awaitingCommit → t.mode = .idle → p.reset = true ∨ p.command = some .commit)

/-- R113 (D9): announce then commit leaves exactly the state, response and events that the `immediate` alternative leaves in one step. -/
def Obligations.AnnounceThenCommitIsImmediate : Prop :=
  ∀ (i : Instr) (m : Staged) (s : State), i.mnemonic.staged = some m → s.INV → s.mode = .idle → s.pre m = true →
    ∃ t u, exec i s = .next t ∧ t.pending = some m ∧ step (t.present commitOnly) = .next u ∧ execImmediate m s = .next u

/-- R157, R31: the number of occupied cells is `sp + 1`; a binary stack opcode reduces it by exactly 1 on success and leaves it on an error. -/
def Obligations.BinaryOpcodesReduceTheDepthByOne : Prop :=
  ∀ s : State, s.INV → (s.occupied : Int) = s.sp + 1 ∧
    ∀ (i : Instr) (t : State), s.mode = .idle → (i = .add ∨ i = .sub ∨ i = .mul ∨ i = .div ∨ i = .slt) →
      exec i s = .next t →
      (t.mode = .idle ∧ t.occupied = s.occupied ∧ ∃ e, t.response = some (.error e)) ∨
      (t.mode = .awaitingCommit ∧ t.occupied = s.occupied ∧
        ∃ u, step (t.present commitOnly) = .next u ∧ u.occupied + 1 = s.occupied)

/-- R81, R82, R73 (the column touchesStack is D24): the catalog lists the 16 opcodes in id order in every state, with the operand counts that IP advances by. -/
def Obligations.CatalogListsTheOpcodesInIdOrder : Prop :=
  ∀ s : State, s.getCatalog.map (fun d => d.id) = List.range 16 ∧
    (∀ d ∈ s.getCatalog, d.id = d.mnemonic.id ∧ 1 + d.operandByteCount = d.mnemonic.len) ∧
    (∀ d ∈ s.getCatalog, d.touchesStack = true ↔
      d.mnemonic ∈ [.PSH, .POP, .ADD, .SUB, .MUL, .DIV, .SLT, .GLD, .GPT])
end

