-- ==== Sys2Proof/Laws/State.lean ====
section
/-! SUPPORT. One lemma per field and per update of the state, the register and cell laws (read after write, frame), and
the accessors `sp`, `pc`, `mode`, `pending`. -/

namespace Sys2Proof.Machine

@[simp] theorem cap_int : ((Config.cap : Nat) : Int) = 10 := rfl

/-! ## The Register File -/

theorem RegFile.get_set (x : RegFile) (r q : Reg) (v : Int) :
    (x.set r v).get q = if q = r then v else x.get q := by
  cases r <;> cases q <;> rfl

theorem RegFile.set_set (x : RegFile) (r : Reg) (v w : Int) : (x.set r v).set r w = x.set r w := by
  cases r <;> rfl

theorem RegFile.set_get (x : RegFile) (r : Reg) : x.set r (x.get r) = x := by
  cases r <;> rfl

theorem RegFile.ext_get {x y : RegFile} (h : ∀ r, x.get r = y.get r) : x = y := by
  obtain ⟨⟩ := x
  obtain ⟨⟩ := y
  simp only [RegFile.mk.injEq]
  exact ⟨h .A, h .B, h .C, h .D, h .E, h .F, h .I, h .J, h .EX, h .EXA, h .IP, h .SP⟩

/-! ## One lemma per field per update -/

section Fields
variable (s : State) (r : Reg) (v : Int) (i : Int) (c : Option Int) (e : Engine)
variable (resp : Option Response) (evs : List Event) (inp : List Presented)

@[simp] theorem setReg_regs : (s.setReg r v).regs = s.regs.set r v := rfl
@[simp] theorem setReg_cells : (s.setReg r v).cells = s.cells := rfl
@[simp] theorem setReg_engine : (s.setReg r v).engine = s.engine := rfl
@[simp] theorem setReg_input : (s.setReg r v).input = s.input := rfl
@[simp] theorem setReg_response : (s.setReg r v).response = s.response := rfl
@[simp] theorem setReg_events : (s.setReg r v).events = s.events := rfl

@[simp] theorem setCell_regs : (s.setCell i c).regs = s.regs := by unfold State.setCell; split <;> rfl
@[simp] theorem setCell_engine : (s.setCell i c).engine = s.engine := by unfold State.setCell; split <;> rfl
@[simp] theorem setCell_input : (s.setCell i c).input = s.input := by unfold State.setCell; split <;> rfl
@[simp] theorem setCell_response : (s.setCell i c).response = s.response := by unfold State.setCell; split <;> rfl
@[simp] theorem setCell_events : (s.setCell i c).events = s.events := by unfold State.setCell; split <;> rfl

@[simp] theorem answer_regs : (s.answer resp evs).regs = s.regs := rfl
@[simp] theorem answer_cells : (s.answer resp evs).cells = s.cells := rfl
@[simp] theorem answer_engine : (s.answer resp evs).engine = s.engine := rfl
@[simp] theorem answer_input : (s.answer resp evs).input = s.input := rfl
@[simp] theorem answer_response : (s.answer resp evs).response = resp := rfl
@[simp] theorem answer_events : (s.answer resp evs).events = evs := rfl

/-! ## Registers through the updates -/

@[simp] theorem reg_setReg (q : Reg) : (s.setReg r v).reg q = if q = r then v else s.reg q :=
  RegFile.get_set s.regs r q v
@[simp] theorem reg_setCell (q : Reg) : (s.setCell i c).reg q = s.reg q := by simp [State.reg]
@[simp] theorem reg_answer (q : Reg) : (s.answer resp evs).reg q = s.reg q := rfl
@[simp] theorem reg_withEngine (q : Reg) : State.reg { s with engine := e } q = s.reg q := rfl
@[simp] theorem reg_withInput (q : Reg) : State.reg { s with input := inp } q = s.reg q := rfl

@[simp] theorem sp_setReg : (s.setReg r v).sp = if r = .SP then v else s.sp := by
  simp [State.sp, eq_comm]
@[simp] theorem sp_setCell : (s.setCell i c).sp = s.sp := by simp [State.sp]
@[simp] theorem sp_answer : (s.answer resp evs).sp = s.sp := rfl
@[simp] theorem sp_withEngine : State.sp { s with engine := e } = s.sp := rfl
@[simp] theorem sp_withInput : State.sp { s with input := inp } = s.sp := rfl

@[simp] theorem pc_setReg : (s.setReg r v).pc = if r = .IP then v else s.pc := by
  simp [State.pc, eq_comm]
@[simp] theorem pc_setCell : (s.setCell i c).pc = s.pc := by simp [State.pc]
@[simp] theorem pc_answer : (s.answer resp evs).pc = s.pc := rfl
@[simp] theorem pc_withEngine : State.pc { s with engine := e } = s.pc := rfl
@[simp] theorem pc_withInput : State.pc { s with input := inp } = s.pc := rfl

@[simp] theorem reg_IP : s.reg .IP = s.pc := rfl
@[simp] theorem reg_SP : s.reg .SP = s.sp := rfl

/-! ## Cells through the updates -/

@[simp] theorem cell_setReg (j : Int) : (s.setReg r v).cell j = s.cell j := rfl
@[simp] theorem cell_answer (j : Int) : (s.answer resp evs).cell j = s.cell j := rfl
@[simp] theorem cell_withEngine (j : Int) : State.cell { s with engine := e } j = s.cell j := rfl
@[simp] theorem cell_withInput (j : Int) : State.cell { s with input := inp } j = s.cell j := rfl

end Fields

theorem isCellIndex_iff {i : Int} : isCellIndex i = true ↔ 0 ≤ i ∧ i < 10 := by
  simp [isCellIndex, Config.cap]

/-- A cell that holds a value has an index of the Stack. -/
theorem index_of_cell {s : State} {i v : Int} (h : s.cell i = some v) : 0 ≤ i ∧ i < 10 := by
  unfold State.cell at h
  split at h
  · exact isCellIndex_iff.1 ‹_›
  · cases h

theorem cell_outside {s : State} {i : Int} (h : ¬ (0 ≤ i ∧ i < 10)) : s.cell i = none := by
  unfold State.cell
  rw [if_neg (mt isCellIndex_iff.1 h)]

/-- Read after write, and a write leaves every other cell alone. -/
theorem cell_setCell (s : State) (i j : Int) (c : Option Int) (hi : 0 ≤ i ∧ i < 10) :
    (s.setCell i c).cell j = if j = i then c else s.cell j := by
  unfold State.setCell
  rw [if_pos (isCellIndex_iff.2 hi)]
  unfold State.cell
  by_cases hj : 0 ≤ j ∧ j < 10
  · rw [if_pos (isCellIndex_iff.2 hj)]
    by_cases h : j = i
    · subst h
      have : j.toNat < 10 := by omega
      simp [Config.cap, this]
    · have : i.toNat ≠ j.toNat := by omega
      simp [this, h, hj, isCellIndex_iff]
  · rw [if_neg (mt isCellIndex_iff.1 hj), if_neg (by rintro rfl; exact hj hi),
      if_neg (mt isCellIndex_iff.1 hj)]

/-- Two states whose cells read alike have the same Stack. -/
theorem cells_ext {s t : State} (h : ∀ i, t.cell i = s.cell i) : t.cells = s.cells := by
  apply Vector.ext
  intro k hk
  have hk : k < 10 := hk
  have hk' : (0 : Int) ≤ (k : Int) ∧ (k : Int) < 10 := by omega
  have := h (k : Int)
  simpa [State.cell, isCellIndex_iff, hk', hk] using this

theorem regs_ext {s t : State} (h : ∀ r, t.reg r = s.reg r) : t.regs = s.regs := RegFile.ext_get h

/-- The block is unchanged exactly when every register, every cell and the engine read as before. -/
theorem sameBlock_iff {s t : State} :
    s.SameBlock t ↔ (∀ r, t.reg r = s.reg r) ∧ (∀ i, t.cell i = s.cell i) ∧ t.engine = s.engine := by
  constructor
  · rintro ⟨h1, h2, h3⟩
    exact ⟨fun r => by simp [State.reg, h1], fun i => by simp [State.cell, h2], h3⟩
  · rintro ⟨h1, h2, h3⟩
    exact ⟨regs_ext h1, cells_ext h2, h3⟩

/-! ## The engine -/

@[simp] theorem mode_idle_iff (s : State) : s.mode = .idle ↔ s.engine = .idle := by
  unfold State.mode; cases s.engine <;> simp
@[simp] theorem mode_awaiting_iff (s : State) : s.mode = .awaitingCommit ↔ ∃ m, s.engine = .awaitingCommit m := by
  unfold State.mode; cases s.engine <;> simp
@[simp] theorem pending_some_iff (s : State) (m : Staged) : s.pending = some m ↔ s.engine = .awaitingCommit m := by
  unfold State.pending; cases s.engine <;> simp
@[simp] theorem pending_none_iff (s : State) : s.pending = none ↔ s.engine = .idle := by
  unfold State.pending; cases s.engine <;> simp
@[simp] theorem ready_iff (s : State) : s.ready = true ↔ s.engine = .idle := by
  simp [State.ready]

/-! ## The invariant -/

/-- Under `INV` a cell of the Stack is occupied exactly up to `sp`. -/
theorem State.INV.occupied_iff {s : State} (h : s.INV) (i : Int) :
    (s.cell i).isSome = true ↔ 0 ≤ i ∧ i ≤ s.sp := by
  obtain ⟨h1, h2, h3⟩ := h
  by_cases hi : 0 ≤ i ∧ i < 10
  · have := h3 ⟨i.toNat, by simp [Config.cap]; omega⟩
    have e : ((i.toNat : Nat) : Int) = i := by omega
    simp only [e] at this
    rw [this]
    simp
    omega
  · rw [cell_outside hi]
    simp [Config.cap] at h2
    simp
    omega

theorem State.INV.cell_some {s : State} (h : s.INV) {i : Int} (h0 : 0 ≤ i) (h1 : i ≤ s.sp) :
    ∃ v, s.cell i = some v :=
  Option.isSome_iff_exists.1 ((h.occupied_iff i).2 ⟨h0, h1⟩)

theorem State.INV.cell_none {s : State} (h : s.INV) {i : Int} (h1 : s.sp < i) : s.cell i = none := by
  have := mt (h.occupied_iff i).1 (by omega)
  simpa using this

theorem State.INV.sp_le {s : State} (h : s.INV) : s.sp ≤ 9 := by
  have := h.2.1
  simp [Config.cap] at this
  omega

/-- `INV` from its reading over all indexes. -/
theorem INV_of_occupied {s : State} (h1 : -1 ≤ s.sp) (h2 : s.sp ≤ 9)
    (h : ∀ i, 0 ≤ i → i < 10 → ((s.cell i).isSome = true ↔ i ≤ s.sp)) : s.INV := by
  refine ⟨h1, by simp [Config.cap]; omega, fun i => ?_⟩
  have hi : (i : Nat) < 10 := i.isLt
  have := h ((i : Nat) : Int) (by omega) (by omega)
  rw [Bool.eq_iff_iff, this]
  simp

/-- `INV` reads only the registers and the cells. -/
theorem INV_congr {s t : State} (hr : t.regs = s.regs) (hc : t.cells = s.cells) : t.INV ↔ s.INV := by
  have e1 : t.sp = s.sp := by simp [State.sp, State.reg, hr]
  have e2 : ∀ i, t.cell i = s.cell i := fun i => by simp [State.cell, hc]
  simp only [State.INV, e1, e2]

end Sys2Proof.Machine
end

