-- ==== Sys2Proof/Laws/Decode.lean ====
section
/-! SUPPORT. The two numbering tables read back and forth, and what the decoder accepts. -/

namespace Sys2Proof

@[simp] theorem Reg.ofNumber_number (r : Reg) : Reg.ofNumber r.number = some r := by cases r <;> rfl

theorem Reg.number_of_ofNumber {n : Int} {r : Reg} (h : Reg.ofNumber n = some r) : r.number = n := by
  simpa using List.find?_some h

theorem Reg.ofNumber_eq_some_iff {n : Int} {r : Reg} : Reg.ofNumber n = some r ↔ n = r.number :=
  ⟨fun h => (Reg.number_of_ofNumber h).symm, fun h => h ▸ Reg.ofNumber_number r⟩

theorem Reg.number_inj {r q : Reg} (h : r.number = q.number) : r = q := by
  have := Reg.ofNumber_number r
  rw [h, Reg.ofNumber_number] at this
  exact (Option.some.inj this).symm

theorem Reg.number_range (r : Reg) : 0 ≤ r.number ∧ r.number ≤ 11 := by cases r <;> decide

/-- A number names a register exactly where it is 0 to 11 (10_state.md R23). -/
theorem namesRegister_iff (n : Int) : namesRegister n = true ↔ ∃ r : Reg, n = r.number := by
  constructor
  · intro h
    simp only [namesRegister, decide_eq_true_eq] at h
    obtain ⟨h0, h1⟩ := h
    interval_cases n
    exacts [⟨.A, rfl⟩, ⟨.B, rfl⟩, ⟨.C, rfl⟩, ⟨.D, rfl⟩, ⟨.E, rfl⟩, ⟨.F, rfl⟩, ⟨.I, rfl⟩, ⟨.J, rfl⟩,
      ⟨.EX, rfl⟩, ⟨.EXA, rfl⟩, ⟨.IP, rfl⟩, ⟨.SP, rfl⟩]
  · rintro ⟨r, rfl⟩
    simpa [namesRegister] using r.number_range

theorem namesDestination_iff (n : Int) : namesDestination n = true ↔ ∃ r : Reg, n = r.number ∧ r ≠ .SP := by
  simp only [namesDestination, Bool.and_eq_true, namesRegister_iff, decide_eq_true_eq]
  constructor
  · rintro ⟨⟨r, rfl⟩, h⟩
    exact ⟨r, rfl, by rintro rfl; exact h rfl⟩
  · rintro ⟨r, rfl, h⟩
    exact ⟨⟨r, rfl⟩, fun e => h (Reg.number_inj (q := .SP) e)⟩

theorem Reg.ofNumber_none_iff (n : Int) : Reg.ofNumber n = none ↔ namesRegister n = false := by
  rw [← Bool.not_eq_true, namesRegister_iff]
  constructor
  · rintro h ⟨r, rfl⟩
    simp at h
  · intro h
    rcases e : Reg.ofNumber n with _ | r
    · rfl
    · exact absurd ⟨r, Reg.ofNumber_eq_some_iff.1 e⟩ h

@[simp] theorem Mnemonic.ofId_id (m : Mnemonic) : Mnemonic.ofId m.id = some m := by cases m <;> rfl

theorem Mnemonic.id_of_ofId {n : Nat} {m : Mnemonic} (h : Mnemonic.ofId n = some m) : m.id = n := by
  simpa using List.find?_some h

theorem Mnemonic.id_le (m : Mnemonic) : m.id ≤ 15 := by cases m <;> decide

@[simp] theorem Mnemonic.ofOpcode_opcode (m : Mnemonic) : Mnemonic.ofOpcode m.opcode = some m := by
  cases m <;> rfl

/-- The opcode check of all 256 bytes (30_encoding.md R74). -/
theorem Mnemonic.ofOpcode_eq_ofId (op : OpByte) :
    Mnemonic.ofOpcode op = if op.toNat ≤ 15 then Mnemonic.ofId op.toNat else none := by
  revert op
  decide

theorem Instr.ofPorts_mnemonic (m : Mnemonic) (a0 a1 a2 : Int) : (Instr.ofPorts m a0 a1 a2).mnemonic = m := by
  cases m <;> rfl

/-- An instruction is its mnemonic with its operands on the ports. -/
theorem Instr.ofPorts_operands (i : Instr) :
    Instr.ofPorts i.mnemonic (i.operands.getD 0 0) (i.operands.getD 1 0) (i.operands.getD 2 0) = i := by
  cases i <;> rfl

theorem Instr.operands_length (i : Instr) : i.operands.length = i.mnemonic.operandByteCount := by
  cases i <;> rfl

/-- What the decoder accepts. -/
theorem decode_ok_iff (w : PortWord) (i : Instr) :
    decode w = .ok i ↔ ∃ m, Mnemonic.ofOpcode w.op = some m ∧ Instr.ofPorts m w.a0 w.a1 w.a2 = i := by
  unfold decode
  cases Mnemonic.ofOpcode w.op <;> simp

/-- Decoding a word whose opcode byte is valid. -/
theorem decode_of_opcode {op : OpByte} {m : Mnemonic} (h : Mnemonic.ofOpcode op = some m) (a0 a1 a2 : Int) :
    decode ⟨op, a0, a1, a2⟩ = .ok (Instr.ofPorts m a0 a1 a2) := by
  simp [decode, h]

theorem decode_error_iff (w : PortWord) (e : DecodeError) :
    decode w = .error e ↔ Mnemonic.ofOpcode w.op = none ∧ e = .invalidOpcode w.op := by
  unfold decode
  cases Mnemonic.ofOpcode w.op <;> simp [eq_comm]

theorem Mnemonic.ofOpcode_of_decode {w : PortWord} {i : Instr} (h : decode w = .ok i) :
    Mnemonic.ofOpcode w.op = some i.mnemonic := by
  obtain ⟨m, hm, rfl⟩ := (decode_ok_iff w i).1 h
  rw [hm, Instr.ofPorts_mnemonic]

end Sys2Proof
end

