-- ==== Sys2Proof/Laws/Ops.lean ====
section
/-! SUPPORT. One lemma for each shared operation that says what it can do: the operand checks, the Stack primitives, the
completion of a transaction, and the two execute shapes. Later proofs cite these and do not unfold the operations. -/

namespace Sys2Proof.Machine

/-! ## Operand checks -/

@[simp] theorem regOperand_number (port : Nat) (r : Reg) : regOperand port r.number = .ok r := by
  simp [regOperand]

theorem regOperand_ok_iff {port : Nat} {a : Int} {r : Reg} : regOperand port a = .ok r ↔ a = r.number := by
  rw [← Reg.ofNumber_eq_some_iff]
  unfold regOperand
  cases Reg.ofNumber a <;> simp

theorem regOperand_error {port : Nat} {a : Int} (h : namesRegister a = false) :
    regOperand port a = .error (.raise (.invalidRegister port a)) := by
  simp [regOperand, (Reg.ofNumber_none_iff a).2 h]

/-- A register operand is a register, or the first error. -/
theorem regOperand_cases (port : Nat) (a : Int) :
    (∃ r : Reg, a = r.number ∧ regOperand port a = .ok r) ∨
    (namesRegister a = false ∧ regOperand port a = .error (.raise (.invalidRegister port a))) := by
  cases h : namesRegister a with
  | true =>
    obtain ⟨r, rfl⟩ := (namesRegister_iff a).1 h
    exact .inl ⟨r, rfl, regOperand_number port r⟩
  | false => exact .inr ⟨rfl, regOperand_error h⟩

theorem dstOperand_number (port : Nat) {r : Reg} (h : r ≠ .SP) : dstOperand port r.number = .ok r := by
  simp [dstOperand, notSP, h]

theorem dstOperand_error {port : Nat} {a : Int} (h : namesDestination a = false) :
    dstOperand port a = .error (.raise (.invalidRegister port a)) := by
  unfold dstOperand
  rcases regOperand_cases port a with ⟨r, rfl, e⟩ | ⟨-, e⟩
  · have : r = .SP := by
      by_contra hr
      exact Bool.false_ne_true (h.symm.trans ((namesDestination_iff _).2 ⟨r, rfl, hr⟩))
    subst this
    simp [notSP, e]
  · simp [e]

/-- A destination operand is a register other than SP, or the first error. -/
theorem dstOperand_cases (port : Nat) (a : Int) :
    (∃ r : Reg, a = r.number ∧ r ≠ .SP ∧ dstOperand port a = .ok r) ∨
    (namesDestination a = false ∧ dstOperand port a = .error (.raise (.invalidRegister port a))) := by
  cases h : namesDestination a with
  | true =>
    obtain ⟨r, rfl, hr⟩ := (namesDestination_iff a).1 h
    exact .inl ⟨r, rfl, hr, dstOperand_number port hr⟩
  | false => exact .inr ⟨rfl, dstOperand_error h⟩

/-- The operands of MOV are the source's check, then the destination's. -/
theorem movOperands_eq (regA regB : Int) :
    movOperands regA regB =
      match regOperand 0 regA with
      | .error e => .error e
      | .ok a => match dstOperand 1 regB with
        | .error e => .error e
        | .ok b => .ok (a, b) := by
  unfold movOperands dstOperand
  cases regOperand 0 regA with
  | error e => rfl
  | ok a => cases regOperand 1 regB <;> rfl

/-! ## Stack primitives -/

theorem peek_ok_iff {k : Int} {s : State} {v : Int} : peek k s = .ok v ↔ s.cell (s.sp - k) = some v := by
  unfold peek
  cases s.cell (s.sp - k) <;> simp

theorem peek_error_iff {k : Int} {s : State} {e : Stop} :
    peek k s = .error e ↔ s.cell (s.sp - k) = none ∧ e = .raise .stackUnderflow := by
  unfold peek
  cases s.cell (s.sp - k) <;> simp [eq_comm]

/-- Everything `push` can do. -/
theorem push_cases (v : Int) (s : State) :
    (s.sp = 9 ∧ push v s = .error (.raise .stackOverflow)) ∨
    (s.sp ≠ 9 ∧ 0 ≤ s.sp + 1 ∧ s.sp + 1 < 10 ∧
      push v s = .ok ((s.setReg .SP (s.sp + 1)).setCell (s.sp + 1) (some v))) ∨
    (s.sp ≠ 9 ∧ ¬ (0 ≤ s.sp + 1 ∧ s.sp + 1 < 10) ∧ push v s = .error (.fault (.noSuchCell (s.sp + 1)))) := by
  unfold push
  by_cases h : s.sp = 9
  · exact .inl ⟨h, by rw [if_pos (by simpa using h)]⟩
  · rw [if_neg (by simpa using h)]
    by_cases hi : 0 ≤ s.sp + 1 ∧ s.sp + 1 < 10
    · exact .inr (.inl ⟨h, hi.1, hi.2, by rw [if_pos (isCellIndex_iff.2 hi)]⟩)
    · exact .inr (.inr ⟨h, hi, by rw [if_neg (mt isCellIndex_iff.1 hi)]⟩)

theorem push_of_INV {s : State} (h : s.INV) (v : Int) (hs : s.sp ≠ 9) :
    push v s = .ok ((s.setReg .SP (s.sp + 1)).setCell (s.sp + 1) (some v)) := by
  have h1 := h.1
  have h2 := h.sp_le
  rcases push_cases v s with ⟨e, -⟩ | ⟨-, -, -, e⟩ | ⟨-, e, -⟩
  · exact absurd e hs
  · exact e
  · exact absurd ⟨by omega, by omega⟩ e

theorem push_full {s : State} (v : Int) (hs : s.sp = 9) : push v s = .error (.raise .stackOverflow) := by
  rcases push_cases v s with ⟨-, e⟩ | ⟨e, -⟩ | ⟨e, -⟩
  · exact e
  · exact absurd hs e
  · exact absurd hs e

/-- Everything `pop` can do. -/
theorem pop_cases (s : State) :
    (s.sp = -1 ∧ pop s = .error (.raise .stackUnderflow)) ∨
    (s.sp ≠ -1 ∧ ∃ v, s.cell s.sp = some v ∧ pop s = .ok (v, (s.setCell s.sp none).setReg .SP (s.sp - 1))) ∨
    (s.sp ≠ -1 ∧ s.cell s.sp = none ∧ pop s = .error (.fault (.emptyCell s.sp))) := by
  unfold pop
  by_cases h : s.sp = -1
  · exact .inl ⟨h, if_pos h⟩
  · rw [if_neg h]
    cases hc : s.cell s.sp with
    | none => exact .inr (.inr ⟨h, rfl, rfl⟩)
    | some v => exact .inr (.inl ⟨h, v, rfl, rfl⟩)

theorem pop_of_cell {s : State} {v : Int} (h : s.cell s.sp = some v) :
    pop s = .ok (v, (s.setCell s.sp none).setReg .SP (s.sp - 1)) := by
  have := index_of_cell h
  unfold pop
  rw [if_neg (by omega), h]

/-- Pushing keeps `INV`. -/
theorem INV_push {s : State} (h : s.INV) (v : Int) (hs : s.sp ≠ 9) :
    ((s.setReg .SP (s.sp + 1)).setCell (s.sp + 1) (some v)).INV := by
  have h1 := h.1
  have h2 := h.sp_le
  refine INV_of_occupied (by simp; omega) (by simp; omega) fun i h0 _ => ?_
  rw [cell_setCell _ _ _ _ (by omega)]
  by_cases e : i = s.sp + 1
  · simp [e]
  · have := h.occupied_iff i
    simp [e, this]
    omega

/-- Emptying the top cell keeps `INV`. -/
theorem INV_pop {s : State} (h : s.INV) (hs : 0 ≤ s.sp) : ((s.setCell s.sp none).setReg .SP (s.sp - 1)).INV := by
  have h2 := h.sp_le
  refine INV_of_occupied (by simp; omega) (by simp; omega) fun i h0 _ => ?_
  rw [cell_setReg, cell_setCell _ _ _ _ (by omega)]
  by_cases e : i = s.sp
  · simp [e]
  · have := h.occupied_iff i
    simp [e, this]
    omega

/-! ## The operands of the staged opcodes -/

theorem twoOperands_ok_iff {s : State} {second top : Int} :
    twoOperands s = .ok (second, top) ↔ s.cell (s.sp - 1) = some second ∧ s.cell s.sp = some top := by
  unfold twoOperands peek
  simp only [sub_zero]
  cases s.cell s.sp <;> cases s.cell (s.sp - 1) <;> simp

/-- The two operands are there, or the check raises `StackUnderflow`. -/
theorem twoOperands_cases (s : State) :
    (∃ second top, s.cell (s.sp - 1) = some second ∧ s.cell s.sp = some top ∧ twoOperands s = .ok (second, top)) ∨
    ((s.cell s.sp = none ∨ s.cell (s.sp - 1) = none) ∧ twoOperands s = .error (.raise .stackUnderflow)) := by
  unfold twoOperands peek
  simp only [sub_zero]
  cases s.cell s.sp with
  | none => simp
  | some top => cases s.cell (s.sp - 1) with
    | none => simp
    | some second => simp

theorem divOperands_ok_iff {s : State} {second top : Int} :
    divOperands s = .ok (second, top) ↔ s.cell (s.sp - 1) = some second ∧ s.cell s.sp = some top ∧ top ≠ 0 := by
  unfold divOperands
  rcases twoOperands_cases s with ⟨b, a, hb, ha, e⟩ | ⟨h, e⟩
  · rw [e, hb, ha]
    by_cases h0 : a = 0
    · simp [h0]
      rintro - rfl
      rfl
    · simp [h0]
      rintro rfl rfl
      exact h0
  · rw [e]
    rcases h with h | h <;> simp [h]

/-- The operands of DIV are there with a divisor that is not 0, or the check raises. -/
theorem divOperands_cases (s : State) :
    (∃ second top, s.cell (s.sp - 1) = some second ∧ s.cell s.sp = some top ∧ top ≠ 0 ∧
      divOperands s = .ok (second, top)) ∨
    ((∃ second, s.cell (s.sp - 1) = some second) ∧ s.cell s.sp = some 0 ∧
      divOperands s = .error (.raise .divideByZero)) ∨
    ((s.cell s.sp = none ∨ s.cell (s.sp - 1) = none) ∧ divOperands s = .error (.raise .stackUnderflow)) := by
  unfold divOperands
  rcases twoOperands_cases s with ⟨b, a, hb, ha, e⟩ | ⟨h, e⟩
  · rw [e]
    by_cases h0 : a = 0
    · subst h0
      exact .inr (.inl ⟨⟨b, hb⟩, ha, by simp⟩)
    · exact .inl ⟨b, a, hb, ha, h0, by simp [h0]⟩
  · rw [e]
    exact .inr (.inr ⟨h, rfl⟩)

/-- Under `INV` the two operands are there exactly where `sp` is at least 1 (40_dispatch.md R105). -/
theorem State.INV.two_cells_iff {s : State} (h : s.INV) :
    (∃ second top, s.cell (s.sp - 1) = some second ∧ s.cell s.sp = some top) ↔ 1 ≤ s.sp := by
  constructor
  · rintro ⟨b, a, hb, -⟩
    have := index_of_cell hb
    omega
  · intro h1
    obtain ⟨b, hb⟩ := h.cell_some (i := s.sp - 1) (by omega) (by omega)
    obtain ⟨a, ha⟩ := h.cell_some (i := s.sp) (by omega) (by omega)
    exact ⟨b, a, hb, ha⟩

/-- `apply` of a binary opcode on operands that are there. -/
theorem applyBinary_ok (f : Int → Int → Int) (second top : Int) (s : State) :
    applyBinary f (.ok (second, top)) s =
      .ok { state := ((s.setCell s.sp none).setCell (s.sp - 1) (some (f second top))).setReg .SP (s.sp - 1)
            regs := [.SP]
            cells := [s.sp - 1, s.sp] } := rfl

/-! ## Completing a transaction -/

section Complete
variable (m : Mnemonic) (a : Applied)

theorem advance_reg {r : Reg} (h : r ≠ .IP) : (advance m a).reg r = a.state.reg r := by
  unfold advance
  split <;> simp [h]

theorem advance_pc : (advance m a).pc =
    if m = .HLT ∨ a.taken = true then a.state.pc else a.state.pc + (m.len : Int) := by
  unfold advance
  split <;> simp

@[simp] theorem advance_cells : (advance m a).cells = a.state.cells := by unfold advance; split <;> rfl
@[simp] theorem advance_engine : (advance m a).engine = a.state.engine := by unfold advance; split <;> rfl
@[simp] theorem advance_input : (advance m a).input = a.state.input := by unfold advance; split <;> rfl
@[simp] theorem advance_cell (i : Int) : (advance m a).cell i = a.state.cell i := by simp [State.cell]

theorem complete_reg {r : Reg} (h : r ≠ .IP) : (complete m a).reg r = a.state.reg r := advance_reg m a h
theorem complete_sp : (complete m a).sp = a.state.sp := complete_reg m a (r := .SP) (by decide)
theorem complete_pc : (complete m a).pc =
    if m = .HLT ∨ a.taken = true then a.state.pc else a.state.pc + (m.len : Int) := advance_pc m a
@[simp] theorem complete_cells : (complete m a).cells = a.state.cells := advance_cells m a
@[simp] theorem complete_cell (i : Int) : (complete m a).cell i = a.state.cell i := advance_cell m a i
@[simp] theorem complete_engine : (complete m a).engine = a.state.engine := advance_engine m a
@[simp] theorem complete_input : (complete m a).input = a.state.input := advance_input m a

/-- The Result's contents, read in the completed state. -/
theorem complete_response : (complete m a).response = some (.result (resultOf a (complete m a))) := rfl
theorem complete_events : (complete m a).events = successEvents m a.detail (resultOf a (complete m a)) := rfl

/-- Completing overwrites the outputs and reads neither. -/
theorem complete_answer (resp : Option Response) (evs : List Event) :
    complete m { a with state := a.state.answer resp evs } = complete m a := by
  unfold complete advance
  split <;> rfl

end Complete

/-! ## The execute shapes: everything they can do -/

theorem conclude_next {m : Mnemonic} {s t : State} {b : Except Stop Applied} (h : conclude m s b = .next t) :
    (∃ a, b = .ok a ∧ t = complete m a) ∨ (∃ e, b = .error (.raise e) ∧ t = raiseError (.mnemonic m) e s) := by
  match b, h with
  | .ok a, h => exact .inl ⟨a, rfl, (Host.Outcome.next.inj h).symm⟩
  | .error (.raise e), h => exact .inr ⟨e, rfl, (Host.Outcome.next.inj h).symm⟩

theorem execAtOnce_next {m : Mnemonic} {b : Except Stop Applied} {s t : State} (h : execAtOnce m b s = .next t) :
    (∃ k, s.engine = .awaitingCommit k ∧ t = reject .busy s) ∨
    (s.engine = .idle ∧ ∃ e, b = .error (.raise e) ∧ t = raiseError (.mnemonic m) e s) ∨
    (s.engine = .idle ∧ ∃ a, b = .ok a ∧ t = complete m a) := by
  unfold execAtOnce at h
  split at h
  · exact .inl ⟨_, ‹_›, (Host.Outcome.next.inj h).symm⟩
  · rcases conclude_next h with h | h
    · exact .inr (.inr ⟨‹_›, h⟩)
    · exact .inr (.inl ⟨‹_›, h⟩)

theorem execStaged_next {m : Staged} {c : Except Stop (List (Int × Int))} {b : Except Stop Applied} {s t : State}
    (h : execStaged m c b s = .next t) :
    (∃ k, s.engine = .awaitingCommit k ∧ t = reject .busy s) ∨
    (s.engine = .idle ∧ ∃ e, c = .error (.raise e) ∧ t = raiseError (.mnemonic m.mnemonic) e s) ∨
    (s.engine = .idle ∧ ∃ l, c = .ok l ∧ t = announce m l s) := by
  unfold execStaged execStagedWith at h
  split at h
  · exact .inl ⟨_, ‹_›, (Host.Outcome.next.inj h).symm⟩
  · refine .inr ?_
    match c, h with
    | .error (.raise e), h => exact .inl ⟨‹_›, e, rfl, (Host.Outcome.next.inj h).symm⟩
    | .ok l, h => exact .inr ⟨‹_›, l, rfl, (Host.Outcome.next.inj h).symm⟩

theorem execAtOnce_ok {m : Mnemonic} {a : Applied} {s : State} (hs : s.engine = .idle) :
    execAtOnce m (.ok a) s = .next (complete m a) := by
  simp [execAtOnce, hs, conclude]

theorem execAtOnce_raise {m : Mnemonic} {e : Error} {s : State} (hs : s.engine = .idle) :
    execAtOnce m (.error (.raise e)) s = .next (raiseError (.mnemonic m) e s) := by
  simp [execAtOnce, hs, conclude]

theorem execStaged_ok {m : Staged} {l : List (Int × Int)} {b : Except Stop Applied} {s : State}
    (hs : s.engine = .idle) : execStaged m (.ok l) b s = .next (announce m l s) := by
  simp [execStaged, execStagedWith, hs, Config.staging]

theorem execStaged_raise {m : Staged} {e : Error} {b : Except Stop Applied} {s : State} (hs : s.engine = .idle) :
    execStaged m (.error (.raise e)) b s = .next (raiseError (.mnemonic m.mnemonic) e s) := by
  simp [execStaged, execStagedWith, hs]

/-! ## What does not change -/

theorem sameBlock_answer (s : State) (r : Option Response) (e : List Event) : s.SameBlock (s.answer r e) :=
  ⟨rfl, rfl, rfl⟩

theorem sameBlock_raiseError (n : OpcodeName) (e : Error) (s : State) : s.SameBlock (raiseError n e s) :=
  ⟨rfl, rfl, rfl⟩

theorem sameBlock_reject (r : RejectReason) (s : State) : s.SameBlock (reject r s) := ⟨rfl, rfl, rfl⟩

theorem answersError_raise {n : OpcodeName} {e : Error} {s : State} :
    AnswersError (.next (raiseError n e s)) s e := ⟨_, rfl, rfl, sameBlock_raiseError n e s⟩

end Sys2Proof.Machine
end

