-- ==== Sys2Proof/Laws/Exec.lean ====
section
/-! SUPPORT. What each `apply` leaves (one lemma per apply), and the inversion lemmas of `exec`, `runExecute`, `runCommit` and
`step`: everything a transaction can do. -/

namespace Sys2Proof.Machine

/-! ## Applied effects -/

/-- What every `apply` of the spec promises: it writes no more than it reports, it leaves the engine and the Driver's
input alone, and it keeps `INV`. -/
structure Applied.Sound (s : State) (a : Applied) : Prop where
  engine : a.state.engine = s.engine
  input : a.state.input = s.input
  regsKept : ∀ r, r ∉ a.regs → r ≠ .IP → a.state.reg r = s.reg r
  cellsKept : ∀ i, i ∉ a.cells → a.state.cell i = s.cell i
  oneReg : a.regs.length ≤ 1
  ascending : a.cells.Pairwise (· < ·)
  haltKeeps : a.halt = true → a.state = s
  inv : s.INV → a.state.INV

/-- An effect that changes no state. -/
theorem Applied.Sound.same {s : State} {a : Applied} (h : a.state = s) (hr : a.regs = []) (hc : a.cells = []) :
    a.Sound s where
  engine := by rw [h]
  input := by rw [h]
  regsKept := by simp [h]
  cellsKept := by simp [h]
  oneReg := by simp [hr]
  ascending := by simp [hc]
  haltKeeps := fun _ => h
  inv := by rw [h]; exact id

theorem pushed_sound {v : Int} {s : State} {a : Applied} (h : pushed v s = .ok a) : a.Sound s := by
  unfold pushed at h
  rcases push_cases v s with ⟨-, e⟩ | ⟨hs, h0, h1, e⟩ | ⟨-, -, e⟩ <;> rw [e] at h <;> cases h
  exact {
    engine := by simp
    input := by simp
    regsKept := by
      intro r hr _
      simp at hr
      simp [hr]
    cellsKept := by
      intro i hi
      simp at hi
      rw [cell_setCell _ _ _ _ (by omega), if_neg hi, cell_setReg]
    oneReg := by simp
    ascending := by simp
    haltKeeps := by simp
    inv := fun hi => INV_push hi v hs }

theorem applyPop_sound {s : State} {a : Applied} (h : applyPop s = .ok a) : a.Sound s := by
  unfold applyPop at h
  rcases pop_cases s with ⟨-, e⟩ | ⟨hs, v, hv, e⟩ | ⟨-, -, e⟩ <;> rw [e] at h <;> cases h
  have := index_of_cell hv
  exact {
    engine := by simp
    input := by simp
    regsKept := by
      intro r hr _
      simp at hr
      simp [hr]
    cellsKept := by
      intro i hi
      simp at hi
      rw [cell_setReg, cell_setCell _ _ _ _ (by omega), if_neg hi]
    oneReg := by simp
    ascending := by simp
    haltKeeps := by simp
    inv := fun hi => INV_pop hi this.1 }

theorem binary_sound {s : State} {f : Int → Int → Int} {second top : Int} (hb : s.cell (s.sp - 1) = some second)
    (ha : s.cell s.sp = some top) {a : Applied} (h : applyBinary f (.ok (second, top)) s = .ok a) : a.Sound s := by
  rw [applyBinary_ok] at h
  cases h
  have := index_of_cell hb
  have := index_of_cell ha
  exact {
    engine := by simp
    input := by simp
    regsKept := by
      intro r hr _
      simp at hr
      simp [hr]
    cellsKept := by
      intro i hi
      simp at hi
      rw [cell_setReg, cell_setCell _ _ _ _ (by omega), if_neg hi.1, cell_setCell _ _ _ _ (by omega), if_neg hi.2]
    oneReg := by simp
    ascending := by simp
    haltKeeps := by simp
    inv := by
      intro hi
      refine INV_of_occupied (by simp; omega) (by simp; omega) fun i h0 _ => ?_
      rw [cell_setReg, cell_setCell _ _ _ _ (by omega), cell_setCell _ _ _ _ (by omega)]
      have := hi.occupied_iff i
      by_cases e1 : i = s.sp - 1
      · simp [e1]
      · by_cases e2 : i = s.sp
        · simp [e2]
          omega
        · simp [e1, e2, this]
          omega }

theorem applyTwo_sound {s : State} {f : Int → Int → Int} {a : Applied} (h : applyBinary f (twoOperands s) s = .ok a) :
    a.Sound s := by
  rcases twoOperands_cases s with ⟨_, _, hb, ha, e⟩ | ⟨-, e⟩ <;> rw [e] at h
  · exact binary_sound hb ha h
  · cases h

theorem applyDiv_sound {s : State} {a : Applied} (h : applyDiv s = .ok a) : a.Sound s := by
  unfold applyDiv at h
  rcases divOperands_cases s with ⟨_, _, hb, ha, -, e⟩ | ⟨-, -, e⟩ | ⟨-, e⟩ <;> rw [e] at h
  · exact binary_sound hb ha h
  · cases h
  · cases h

theorem applyPending_sound {m : Staged} {s : State} {a : Applied} (h : applyPending m s = .ok a) : a.Sound s := by
  cases m with
  | pop => exact applyPop_sound h
  | add => exact applyTwo_sound h
  | sub => exact applyTwo_sound h
  | mul => exact applyTwo_sound h
  | div => exact applyDiv_sound h
  | slt => exact applyTwo_sound h

theorem wroteReg_sound {r : Reg} (v : Int) (s : State) (hr : r ≠ .SP) : (wroteReg r v s).Sound s where
  engine := rfl
  input := rfl
  regsKept := by
    intro q hq _
    simp [wroteReg] at hq
    simp [wroteReg, hq]
  cellsKept := fun _ _ => rfl
  oneReg := by simp [wroteReg]
  ascending := by simp [wroteReg]
  haltKeeps := by simp [wroteReg]
  inv := by
    intro h
    have : (s.setReg r v).sp = s.sp := by simp [hr]
    refine INV_of_occupied (by simpa [wroteReg, this] using h.1) (by simpa [wroteReg, this] using h.sp_le)
      fun i h0 _ => ?_
    have := h.occupied_iff i
    simp [wroteReg, hr, this]
    omega

theorem branchTo_sound (taken : Bool) (target : Int) (s : State) : (branchTo taken target s).Sound s := by
  cases taken with
  | false => exact .same rfl rfl rfl
  | true =>
    have h := wroteReg_sound (r := .IP) target s (by decide)
    exact {
      engine := rfl
      input := rfl
      regsKept := by
        intro r _ hr
        simp [branchTo, hr]
      cellsKept := fun _ _ => rfl
      oneReg := by simp [branchTo]
      ascending := by simp [branchTo]
      haltKeeps := by simp [branchTo]
      inv := h.inv }

/-! ## exec by shape -/

/-- The checks and the effect of an instruction in `Idle`. -/
def effect (i : Instr) (s : State) : Except Stop Applied :=
  match i with
  | .hlt => .ok { state := s, halt := true }
  | .nop => .ok { state := s }
  | .psh val => applyPsh val s
  | .pop => applyPop s
  | .add => applyAdd s
  | .sub => applySub s
  | .mul => applyMul s
  | .div => applyDiv s
  | .slt => applySlt s
  | .mov regA regB => applyMov regA regB s
  | .set reg val => applySet reg val s
  | .log reg => applyLog reg s
  | .if_ reg val target => applyIf reg val target s
  | .ifn reg val target => applyIfn reg val target s
  | .gld reg => applyGld reg s
  | .gpt reg => applyGpt reg s

theorem exec_atOnce {i : Instr} (h : i.mnemonic.staged = none) (s : State) :
    exec i s = execAtOnce i.mnemonic (effect i s) s := by
  cases i <;> first | rfl | cases h

theorem exec_staged {i : Instr} {m : Staged} (h : i.mnemonic.staged = some m) (s : State) :
    exec i s = execStaged m (consumedBy m s) (applyPending m s) s := by
  cases i <;> cases h <;> rfl

theorem staged_mnemonic {n : Mnemonic} {m : Staged} (h : n.staged = some m) : m.mnemonic = n := by
  cases n <;> cases h <;> rfl

theorem applyMov_cases (x y : Int) (s : State) :
    (∃ a b : Reg, x = a.number ∧ y = b.number ∧ b ≠ .SP ∧ applyMov x y s = .ok (wroteReg b (s.reg a) s)) ∨
    (namesRegister x = false ∧ applyMov x y s = .error (.raise (.invalidRegister 0 x))) ∨
    (namesRegister x = true ∧ namesDestination y = false ∧ applyMov x y s = .error (.raise (.invalidRegister 1 y))) := by
  unfold applyMov
  rw [movOperands_eq]
  rcases regOperand_cases 0 x with ⟨a, rfl, e⟩ | ⟨hx, e⟩
  · rcases dstOperand_cases 1 y with ⟨b, rfl, hb, e'⟩ | ⟨hy, e'⟩
    · exact .inl ⟨a, b, rfl, rfl, hb, by simp [e']⟩
    · exact .inr (.inr ⟨(namesRegister_iff _).2 ⟨a, rfl⟩, hy, by simp [e']⟩)
  · exact .inr (.inl ⟨hx, by simp [e]⟩)

theorem effect_sound {i : Instr} {s : State} {a : Applied} (h : effect i s = .ok a) : a.Sound s := by
  cases i with
  | hlt => cases h; exact .same rfl rfl rfl
  | nop => cases h; exact .same rfl rfl rfl
  | psh v => exact pushed_sound h
  | pop => exact applyPop_sound h
  | add => exact applyTwo_sound h
  | sub => exact applyTwo_sound h
  | mul => exact applyTwo_sound h
  | div => exact applyDiv_sound h
  | slt => exact applyTwo_sound h
  | mov x y =>
    rcases applyMov_cases x y s with ⟨_, b, rfl, rfl, hb, e⟩ | ⟨-, e⟩ | ⟨-, -, e⟩ <;> simp only [effect, e] at h <;> cases h
    exact wroteReg_sound _ s hb
  | set x v =>
    rcases dstOperand_cases 0 x with ⟨b, rfl, hb, e⟩ | ⟨-, e⟩ <;> simp only [effect, applySet, e] at h <;> cases h
    exact wroteReg_sound _ s hb
  | log x =>
    rcases regOperand_cases 0 x with ⟨b, rfl, e⟩ | ⟨-, e⟩ <;> simp only [effect, applyLog, e] at h <;> cases h
    exact .same rfl rfl rfl
  | if_ x v w =>
    rcases regOperand_cases 0 x with ⟨b, rfl, e⟩ | ⟨-, e⟩ <;> simp only [effect, applyIf, e] at h <;> cases h
    exact branchTo_sound _ w s
  | ifn x v w =>
    rcases regOperand_cases 0 x with ⟨b, rfl, e⟩ | ⟨-, e⟩ <;> simp only [effect, applyIfn, e] at h <;> cases h
    exact branchTo_sound _ w s
  | gld x =>
    rcases regOperand_cases 0 x with ⟨b, rfl, e⟩ | ⟨-, e⟩ <;> simp only [effect, applyGld, e] at h
    · exact pushed_sound h
    · cases h
  | gpt x =>
    rcases dstOperand_cases 0 x with ⟨b, rfl, hb, e⟩ | ⟨-, e⟩ <;> simp only [effect, applyGpt, e] at h
    · cases hp : peek 0 s with
      | error e' => simp [hp] at h
      | ok v =>
        simp only [hp] at h
        cases h
        exact wroteReg_sound _ s hb
    · cases h

/-- Everything the execute of a decoded instruction can do. -/
theorem exec_cases {i : Instr} {s t : State} (h : exec i s = .next t) :
    (∃ k, s.engine = .awaitingCommit k ∧ t = reject .busy s) ∨
    (s.engine = .idle ∧ ∃ e, t = raiseError (.mnemonic i.mnemonic) e s) ∨
    (s.engine = .idle ∧ ∃ m c, i.mnemonic.staged = some m ∧ consumedBy m s = .ok c ∧ t = announce m c s) ∨
    (s.engine = .idle ∧ ∃ a, i.mnemonic.staged = none ∧ effect i s = .ok a ∧ a.Sound s ∧ t = complete i.mnemonic a) := by
  cases hm : i.mnemonic.staged with
  | none =>
    rw [exec_atOnce hm] at h
    rcases execAtOnce_next h with h | ⟨hs, e, -, ht⟩ | ⟨hs, a, ha, ht⟩
    · exact .inl h
    · exact .inr (.inl ⟨hs, e, ht⟩)
    · exact .inr (.inr (.inr ⟨hs, a, rfl, ha, effect_sound ha, ht⟩))
  | some m =>
    rw [exec_staged hm] at h
    rcases execStaged_next h with h | ⟨hs, e, -, ht⟩ | ⟨hs, c, hc, ht⟩
    · exact .inl h
    · exact .inr (.inl ⟨hs, e, by rw [ht, staged_mnemonic hm]⟩)
    · exact .inr (.inr (.inl ⟨hs, m, c, rfl, hc, ht⟩))

/-! ## The commands -/

theorem runExecute_ok {w : PortWord} {i : Instr} (h : decode w = .ok i) (s : State) : runExecute w s = exec i s := by
  unfold runExecute
  cases hs : s.engine with
  | idle => simp [h]
  | awaitingCommit k =>
    cases hm : i.mnemonic.staged with
    | none => simp [exec_atOnce hm, execAtOnce, hs]
    | some m => simp [exec_staged hm, execStaged, execStagedWith, hs]

/-- Everything `execute` can do. -/
theorem runExecute_cases {w : PortWord} {s t : State} (h : runExecute w s = .next t) :
    (∃ k, s.engine = .awaitingCommit k ∧ t = reject .busy s) ∨
    (s.engine = .idle ∧ Mnemonic.ofOpcode w.op = none ∧ t = raiseError (.raw w.op) (.invalidOpcode w.op) s) ∨
    (s.engine = .idle ∧ ∃ i, decode w = .ok i ∧ exec i s = .next t) := by
  unfold runExecute at h
  split at h
  · exact .inl ⟨_, ‹_›, (Host.Outcome.next.inj h).symm⟩
  · cases hd : decode w with
    | ok i => exact .inr (.inr ⟨‹_›, i, rfl, by simpa [hd] using h⟩)
    | error e =>
      obtain ⟨hm, rfl⟩ := (decode_error_iff w e).1 hd
      rw [hd] at h
      exact .inr (.inl ⟨‹_›, hm, (Host.Outcome.next.inj h).symm⟩)

/-- Everything `commit` can do. -/
theorem runCommit_cases {s t : State} (h : runCommit s = .next t) :
    (s.engine = .idle ∧ t = reject .nothingPending s) ∨
    (∃ m a, s.engine = .awaitingCommit m ∧ applyPending m s = .ok a ∧ a.Sound s ∧
      t = { complete m.mnemonic a with engine := .idle }) := by
  unfold runCommit at h
  split at h
  · exact .inl ⟨‹_›, (Host.Outcome.next.inj h).symm⟩
  · rename_i m hm
    cases hb : applyPending m s with
    | ok a =>
      rw [hb] at h
      exact .inr ⟨m, a, hm, hb, applyPending_sound hb, (Host.Outcome.next.inj h).symm⟩
    | error e => cases e <;> simp [hb] at h

theorem runCommit_ok {s : State} {m : Staged} {a : Applied} (hs : s.engine = .awaitingCommit m)
    (ha : applyPending m s = .ok a) : runCommit s = .next { complete m.mnemonic a with engine := .idle } := by
  simp [runCommit, hs, ha]

/-! ## The step -/

theorem step_execute (s : State) (w : PortWord) : step (s.present (executeOf w)) = runExecute w s := rfl
theorem step_commit (s : State) : step (s.present commitOnly) = runCommit s := rfl
theorem step_reset (s : State) (c : Option Command) : step (s.present ⟨true, c⟩) = .next (resetBlock s) := rfl

theorem step_cons {s : State} {p : Presented} {rest : List Presented} (h : s.input = p :: rest) :
    step s = runPresented p { s with input := rest } := by
  simp [step, transact, h]

/-- Everything a step can do. -/
theorem step_cases {s t : State} (h : step s = .next t) :
    (s.input = [] ∧ t = s.answer none []) ∨
    ∃ p rest, s.input = p :: rest ∧
      ((p.reset = true ∧ t = resetBlock { s with input := rest }) ∨
       (p.reset = false ∧ p.command = none ∧ t = ({ s with input := rest } : State).answer none []) ∨
       (p.reset = false ∧ ∃ w, p.command = some (.execute w) ∧ runExecute w { s with input := rest } = .next t) ∨
       (p.reset = false ∧ p.command = some .commit ∧ runCommit { s with input := rest } = .next t)) := by
  cases hi : s.input with
  | nil => exact .inl ⟨rfl, by simpa [step, transact, hi, eq_comm] using h⟩
  | cons p rest =>
    rw [step_cons hi] at h
    obtain ⟨r, c⟩ := p
    refine .inr ⟨_, rest, rfl, ?_⟩
    cases r with
    | true => exact .inl ⟨rfl, by simpa [runPresented, eq_comm] using h⟩
    | false =>
      match c, h with
      | none, h => exact .inr (.inl ⟨rfl, rfl, (Host.Outcome.next.inj h).symm⟩)
      | some (.execute w), h => exact .inr (.inr (.inl ⟨rfl, w, rfl, h⟩))
      | some .commit, h => exact .inr (.inr (.inr ⟨rfl, rfl, h⟩))

end Sys2Proof.Machine
end

