-- ==== Sys2Proof/Laws/Total.lean ====
section
/-! SUPPORT. When the checks hold and when they raise: no check and no `apply` stops the model where the invariant holds.
Also what a transaction reads: it never reads the outputs of the last one. -/

namespace Sys2Proof.Machine

/-! ## The invariant -/

theorem Inv_of_idle {s : State} (h : s.INV) (hs : s.engine = .idle) : s.Inv := ⟨h, by simp [State.pendingPre, hs]⟩

theorem State.Inv.pre {s : State} (h : s.Inv) {m : Staged} (hm : s.engine = .awaitingCommit m) : s.pre m = true := by
  simpa [State.pendingPre, hm] using h.2

/-- The invariant reads only the block. -/
theorem Inv_congr {s t : State} (h : s.SameBlock t) : t.Inv ↔ s.Inv := by
  obtain ⟨h1, h2, h3⟩ := h
  have e1 : t.sp = s.sp := by simp [State.sp, State.reg, h1]
  have e2 : ∀ i, t.cell i = s.cell i := fun i => by simp [State.cell, h2]
  simp only [State.Inv, State.pendingPre, State.pre, State.INV, h3, e1, e2]

/-- Completing a sound effect keeps `INV`. -/
theorem INV_complete {m : Mnemonic} {a : Applied} {s : State} (ha : a.Sound s) (h : s.INV) : (complete m a).INV := by
  simp only [State.INV, complete_sp, complete_cell]
  exact ha.inv h

/-! ## Preconditions -/

/-- Under `INV` what the commit of `m` consumes is there exactly where `pre(m)` holds (40_dispatch.md R105). -/
theorem consumedBy_ok_iff {m : Staged} {s : State} (hi : s.INV) : (∃ c, consumedBy m s = .ok c) ↔ s.pre m = true := by
  have two : (∃ c, previewTwo (twoOperands s) s = .ok c) ↔ 1 ≤ s.sp := by
    rw [← hi.two_cells_iff]
    rcases twoOperands_cases s with ⟨b, a, hb, ha, e⟩ | ⟨h, e⟩
    · simp [e, previewTwo, hb, ha]
    · rcases h with h | h <;> simp [e, previewTwo, h]
  cases m with
  | pop =>
    have := hi.occupied_iff s.sp
    simp only [consumedBy, previewOne, peek, sub_zero, State.pre, decide_eq_true_eq]
    cases hc : s.cell s.sp <;> simp [hc] at this ⊢ <;> omega
  | add => simpa [consumedBy, State.pre] using two
  | sub => simpa [consumedBy, State.pre] using two
  | mul => simpa [consumedBy, State.pre] using two
  | slt => simpa [consumedBy, State.pre] using two
  | div =>
    simp only [consumedBy, State.pre, decide_eq_true_eq, ← hi.two_cells_iff]
    rcases divOperands_cases s with ⟨b, a, hb, ha, h0, e⟩ | ⟨⟨b, hb⟩, ha, e⟩ | ⟨h, e⟩
    · simp [e, previewTwo, hb, ha, h0]
    · simp [e, previewTwo, ha]
    · rcases h with h | h <;> simp [e, previewTwo, h]

/-- `apply` of a staged opcode succeeds exactly where the check at its announce does. -/
theorem applyPending_ok_of_consumedBy {m : Staged} {s : State} {c : List (Int × Int)} (h : consumedBy m s = .ok c) :
    ∃ a, applyPending m s = .ok a := by
  cases m with
  | pop =>
    simp only [consumedBy, previewOne] at h
    cases hp : peek 0 s with
    | error e => simp [hp] at h
    | ok v => simp [applyPending, applyPop, pop_of_cell (by simpa using peek_ok_iff.1 hp : s.cell s.sp = some v)]
  | div =>
    simp only [consumedBy] at h
    rcases divOperands_cases s with ⟨_, _, -, -, -, e⟩ | ⟨-, -, e⟩ | ⟨-, e⟩ <;> rw [e] at h
    · exact ⟨_, by simp only [applyPending, applyDiv, e]; rfl⟩
    · cases h
    · cases h
  | add =>
    simp only [consumedBy] at h
    rcases twoOperands_cases s with ⟨_, _, -, -, e⟩ | ⟨-, e⟩ <;> rw [e] at h
    · exact ⟨_, by simp only [applyPending, applyAdd, e]; rfl⟩
    · cases h
  | sub =>
    simp only [consumedBy] at h
    rcases twoOperands_cases s with ⟨_, _, -, -, e⟩ | ⟨-, e⟩ <;> rw [e] at h
    · exact ⟨_, by simp only [applyPending, applySub, e]; rfl⟩
    · cases h
  | mul =>
    simp only [consumedBy] at h
    rcases twoOperands_cases s with ⟨_, _, -, -, e⟩ | ⟨-, e⟩ <;> rw [e] at h
    · exact ⟨_, by simp only [applyPending, applyMul, e]; rfl⟩
    · cases h
  | slt =>
    simp only [consumedBy] at h
    rcases twoOperands_cases s with ⟨_, _, -, -, e⟩ | ⟨-, e⟩ <;> rw [e] at h
    · exact ⟨_, by simp only [applyPending, applySlt, e]; rfl⟩
    · cases h

/-- A check at an announce never stops the model. -/
theorem consumedBy_total (m : Staged) (s : State) :
    (∃ c, consumedBy m s = .ok c) ∨ ∃ e, consumedBy m s = .error (.raise e) := by
  cases m with
  | pop =>
    cases hp : peek 0 s with
    | ok v => simp [consumedBy, previewOne, hp]
    | error e => obtain ⟨-, rfl⟩ := peek_error_iff.1 hp; simp [consumedBy, previewOne, hp]
  | div =>
    rcases divOperands_cases s with ⟨_, _, -, -, -, e⟩ | ⟨-, -, e⟩ | ⟨-, e⟩ <;> simp [consumedBy, e, previewTwo]
  | add => rcases twoOperands_cases s with ⟨_, _, -, -, e⟩ | ⟨-, e⟩ <;> simp [consumedBy, e, previewTwo]
  | sub => rcases twoOperands_cases s with ⟨_, _, -, -, e⟩ | ⟨-, e⟩ <;> simp [consumedBy, e, previewTwo]
  | mul => rcases twoOperands_cases s with ⟨_, _, -, -, e⟩ | ⟨-, e⟩ <;> simp [consumedBy, e, previewTwo]
  | slt => rcases twoOperands_cases s with ⟨_, _, -, -, e⟩ | ⟨-, e⟩ <;> simp [consumedBy, e, previewTwo]

/-- Under `INV` a push succeeds or raises `StackOverflow`. -/
theorem pushed_total {s : State} (hi : s.INV) (v : Int) :
    (s.sp ≠ 9 ∧ pushed v s = .ok {
      state := (s.setReg .SP (s.sp + 1)).setCell (s.sp + 1) (some v), regs := [.SP], cells := [s.sp + 1] }) ∨
    (s.sp = 9 ∧ pushed v s = .error (.raise .stackOverflow)) := by
  by_cases h : s.sp = 9
  · exact .inr ⟨h, by simp [pushed, push_full v h]⟩
  · exact .inl ⟨h, by simp [pushed, push_of_INV hi v h]⟩

/-- Under `INV` no instruction that is applied at once stops the model. -/
theorem effect_total {i : Instr} {s : State} (hi : s.INV) (hm : i.mnemonic.staged = none) :
    (∃ a, effect i s = .ok a) ∨ ∃ e, effect i s = .error (.raise e) := by
  cases i <;> try cases hm
  case hlt => exact .inl ⟨_, rfl⟩
  case nop => exact .inl ⟨_, rfl⟩
  case psh v => rcases pushed_total hi v with ⟨-, e⟩ | ⟨-, e⟩ <;> simp [effect, applyPsh, e]
  case mov x y => rcases applyMov_cases x y s with ⟨_, _, -, -, -, e⟩ | ⟨-, e⟩ | ⟨-, -, e⟩ <;> simp [effect, e]
  case set x _ => rcases dstOperand_cases 0 x with ⟨_, -, -, e⟩ | ⟨-, e⟩ <;> simp [effect, applySet, e]
  case log x => rcases regOperand_cases 0 x with ⟨_, -, e⟩ | ⟨-, e⟩ <;> simp [effect, applyLog, e]
  case if_ x _ _ => rcases regOperand_cases 0 x with ⟨_, -, e⟩ | ⟨-, e⟩ <;> simp [effect, applyIf, e]
  case ifn x _ _ => rcases regOperand_cases 0 x with ⟨_, -, e⟩ | ⟨-, e⟩ <;> simp [effect, applyIfn, e]
  case gld x =>
    rcases regOperand_cases 0 x with ⟨r, -, e⟩ | ⟨-, e⟩
    · rcases pushed_total hi (s.reg r) with ⟨-, e'⟩ | ⟨-, e'⟩ <;> simp [effect, applyGld, e, e']
    · simp [effect, applyGld, e]
  case gpt x =>
    rcases dstOperand_cases 0 x with ⟨_, -, -, e⟩ | ⟨-, e⟩
    · cases hp : peek 0 s with
      | ok v => simp [effect, applyGpt, e, hp]
      | error e' => obtain ⟨-, rfl⟩ := peek_error_iff.1 hp; simp [effect, applyGpt, e, hp]
    · simp [effect, applyGpt, e]

/-- An execute in `AwaitingCommit` is Busy. -/
theorem exec_busy {s : State} {k : Staged} (hs : s.engine = .awaitingCommit k) (i : Instr) :
    exec i s = .next (reject .busy s) := by
  cases hm : i.mnemonic.staged with
  | none => rw [exec_atOnce hm]; simp [execAtOnce, hs]
  | some m => rw [exec_staged hm]; simp [execStaged, execStagedWith, hs]

theorem runExecute_busy {s : State} {k : Staged} (hs : s.engine = .awaitingCommit k) (w : PortWord) :
    runExecute w s = .next (reject .busy s) := by simp [runExecute, hs]

theorem runCommit_idle {s : State} (hs : s.engine = .idle) : runCommit s = .next (reject .nothingPending s) := by
  simp [runCommit, hs]

/-! ## Which error an execute raises -/

/-- The error the checks of an instruction raise in `Idle`, if any. -/
def raised (i : Instr) (s : State) : Option Error :=
  match i.mnemonic.staged with
  | none => match effect i s with
    | .error (.raise e) => some e
    | _ => none
  | some m => match consumedBy m s with
    | .error (.raise e) => some e
    | _ => none

/-- In `Idle` an execute is answered with the error its checks raise, and with no other. -/
theorem answersError_iff {s : State} (hs : s.engine = .idle) (i : Instr) (e : Error) :
    AnswersError (exec i s) s e ↔ raised i s = some e := by
  unfold raised
  cases hm : i.mnemonic.staged with
  | none =>
    rw [exec_atOnce hm]
    match he : effect i s with
    | .ok a =>
      rw [execAtOnce_ok hs]
      simp [AnswersError, complete_response]
    | .error (.raise e') =>
      rw [execAtOnce_raise hs]
      simp [AnswersError, raiseError, sameBlock_answer]
    | .error (.fault f) => simp [AnswersError, execAtOnce, hs, conclude]
  | some m =>
    rw [exec_staged hm]
    match hc : consumedBy m s with
    | .ok c =>
      rw [execStaged_ok hs]
      simp [AnswersError, announce, hc]
    | .error (.raise e') =>
      rw [execStaged_raise hs]
      simp [AnswersError, raiseError, sameBlock_answer, hc]
    | .error (.fault f) => simp [AnswersError, execStaged, execStagedWith, hs, hc]

/-! ## The outputs of the last transaction are not read -/

/-- An effect with the outputs of its state replaced. -/
def Applied.answered (a : Applied) (r : Option Response) (e : List Event) : Applied :=
  { a with state := a.state.answer r e }

section Outputs
variable (s : State) (r : Option Response) (e : List Event)

theorem setCell_answer (i : Int) (c : Option Int) : (s.answer r e).setCell i c = (s.setCell i c).answer r e := by
  unfold State.setCell
  split <;> rfl

@[simp] theorem peek_answer (k : Int) : peek k (s.answer r e) = peek k s := rfl
@[simp] theorem twoOperands_answer : twoOperands (s.answer r e) = twoOperands s := rfl
@[simp] theorem divOperands_answer : divOperands (s.answer r e) = divOperands s := rfl
@[simp] theorem consumedBy_answer (m : Staged) : consumedBy m (s.answer r e) = consumedBy m s := by cases m <;> rfl

theorem push_answer (v : Int) : push v (s.answer r e) = (push v s).map (·.answer r e) := by
  unfold push
  rw [sp_answer]
  by_cases h : s.sp = (Config.cap : Int) - 1
  · rw [if_pos h, if_pos h]; rfl
  · rw [if_neg h, if_neg h]
    by_cases hi : isCellIndex (s.sp + 1) = true
    · rw [if_pos hi, if_pos hi]
      exact congrArg _ (setCell_answer (s.setReg .SP (s.sp + 1)) r e _ _)
    · rw [if_neg hi, if_neg hi]; rfl

theorem pushed_answer (v : Int) : pushed v (s.answer r e) = (pushed v s).map (·.answered r e) := by
  unfold pushed
  rw [push_answer]
  cases push v s <;> rfl

theorem applyPop_answer : applyPop (s.answer r e) = (applyPop s).map (·.answered r e) := by
  unfold applyPop pop
  rw [sp_answer, cell_answer]
  by_cases h : s.sp = -1
  · rw [if_pos h, if_pos h]; rfl
  · rw [if_neg h, if_neg h]
    cases s.cell s.sp with
    | none => rfl
    | some v => simp only [setCell_answer]; rfl

theorem branchTo_answer (taken : Bool) (target : Int) :
    branchTo taken target (s.answer r e) = (branchTo taken target s).answered r e := by cases taken <;> rfl

theorem applyBinary_answer (f : Int → Int → Int) (o : Except Stop (Int × Int)) :
    applyBinary f o (s.answer r e) = (applyBinary f o s).map (·.answered r e) := by
  match o with
  | .error _ => rfl
  | .ok (second, top) => simp only [applyBinary, sp_answer, setCell_answer]; rfl

theorem applyPending_answer (m : Staged) : applyPending m (s.answer r e) = (applyPending m s).map (·.answered r e) := by
  cases m with
  | pop => exact applyPop_answer s r e
  | add => exact applyBinary_answer s r e _ _
  | sub => exact applyBinary_answer s r e _ _
  | mul => exact applyBinary_answer s r e _ _
  | div => exact applyBinary_answer s r e _ _
  | slt => exact applyBinary_answer s r e _ _

theorem effect_answer (i : Instr) : effect i (s.answer r e) = (effect i s).map (·.answered r e) := by
  cases i with
  | hlt => rfl
  | nop => rfl
  | psh v => exact pushed_answer s r e v
  | pop => exact applyPop_answer s r e
  | add => exact applyBinary_answer s r e _ _
  | sub => exact applyBinary_answer s r e _ _
  | mul => exact applyBinary_answer s r e _ _
  | div => exact applyBinary_answer s r e _ _
  | slt => exact applyBinary_answer s r e _ _
  | mov x y => simp only [effect, applyMov]; cases movOperands x y <;> rfl
  | set x _ => simp only [effect, applySet]; cases dstOperand 0 x <;> rfl
  | log x => simp only [effect, applyLog]; cases regOperand 0 x <;> rfl
  | if_ x v w =>
    simp only [effect, applyIf, branchTo_answer, reg_answer]
    cases regOperand 0 x <;> rfl
  | ifn x v w =>
    simp only [effect, applyIfn, branchTo_answer, reg_answer]
    cases regOperand 0 x <;> rfl
  | gld x =>
    simp only [effect, applyGld]
    cases regOperand 0 x with
    | error _ => rfl
    | ok q => exact pushed_answer s r e _
  | gpt x =>
    simp only [effect, applyGpt, peek_answer]
    cases dstOperand 0 x with
    | error _ => rfl
    | ok q => cases peek 0 s <;> rfl

theorem complete_answered (m : Mnemonic) (a : Applied) : complete m (a.answered r e) = complete m a :=
  complete_answer m a r e

end Outputs

/-! ## The `apply` of a staged opcode does not read the engine -/

/-- An effect with the engine of its state replaced. -/
def Applied.inEngine (a : Applied) (e : Engine) : Applied := { a with state := { a.state with engine := e } }

theorem setCell_withEngine (s : State) (e : Engine) (i : Int) (c : Option Int) :
    State.setCell { s with engine := e } i c = { s.setCell i c with engine := e } := by
  unfold State.setCell
  split <;> rfl

theorem applyBinary_withEngine (s : State) (e : Engine) (f : Int → Int → Int) (o : Except Stop (Int × Int)) :
    applyBinary f o { s with engine := e } = (applyBinary f o s).map (·.inEngine e) := by
  match o with
  | .error _ => rfl
  | .ok (second, top) =>
    simp only [applyBinary, sp_withEngine, setCell_withEngine]
    rfl

theorem applyPending_withEngine (m : Staged) (s : State) (e : Engine) :
    applyPending m { s with engine := e } = (applyPending m s).map (·.inEngine e) := by
  cases m with
  | pop =>
    unfold applyPending applyPop pop
    simp only [sp_withEngine, cell_withEngine]
    by_cases h : s.sp = -1
    · simp only [h, ↓reduceIte]; rfl
    · simp only [h, ↓reduceIte]
      cases s.cell s.sp with
      | none => rfl
      | some v => simp only [setCell_withEngine]; rfl
  | add => exact applyBinary_withEngine s e _ _
  | sub => exact applyBinary_withEngine s e _ _
  | mul => exact applyBinary_withEngine s e _ _
  | div => exact applyBinary_withEngine s e _ _
  | slt => exact applyBinary_withEngine s e _ _

end Sys2Proof.Machine
end

