-- ==== Sys2Proof/Laws/Errors.lean ====
section
/-! SUPPORT. The error each instruction raises in `Idle` under `INV`, as one function of the operands and the state
(40_dispatch.md R103 to R106). -/

namespace Sys2Proof.Machine

/-- Under `INV`, `peek(0)` fails exactly on the empty stack. -/
theorem State.INV.peek_zero {s : State} (hi : s.INV) :
    (s.sp = -1 ∧ peek 0 s = .error (.raise .stackUnderflow)) ∨ (s.sp ≠ -1 ∧ ∃ v, s.cell s.sp = some v ∧ peek 0 s = .ok v) := by
  have h1 := hi.1
  cases hp : peek 0 s with
  | ok v =>
    have hv := peek_ok_iff.1 hp
    have := index_of_cell hv
    exact .inr ⟨by omega, v, by simpa using hv, rfl⟩
  | error e =>
    obtain ⟨h, rfl⟩ := peek_error_iff.1 hp
    refine .inl ⟨?_, rfl⟩
    by_contra hn
    obtain ⟨v, hv⟩ := hi.cell_some (i := s.sp - 0) (by omega) (by omega)
    rw [hv] at h
    cases h

/-- The error of a binary stack opcode other than DIV. -/
theorem State.INV.raised_two {s : State} (hi : s.INV) :
    (match previewTwo (twoOperands s) s with
      | .error (.raise e) => some e
      | _ => none) = if s.sp ≤ 0 then some Error.stackUnderflow else none := by
  rcases twoOperands_cases s with ⟨b, a, hb, ha, e⟩ | ⟨h, e⟩
  · have := hi.two_cells_iff.1 ⟨b, a, hb, ha⟩
    rw [e, if_neg (by omega)]; rfl
  · have : ¬ 1 ≤ s.sp := fun h1 => by
      obtain ⟨b, a, hb, ha⟩ := hi.two_cells_iff.2 h1
      simp [hb, ha] at h
    rw [e, if_pos (by omega)]; rfl

/-- The error of every instruction. -/
theorem raised_eq {i : Instr} {s : State} (hi : s.INV) : raised i s = match i with
  | .hlt => none
  | .nop => none
  | .psh _ => if s.sp = 9 then some .stackOverflow else none
  | .pop => if s.sp = -1 then some .stackUnderflow else none
  | .add => if s.sp ≤ 0 then some .stackUnderflow else none
  | .sub => if s.sp ≤ 0 then some .stackUnderflow else none
  | .mul => if s.sp ≤ 0 then some .stackUnderflow else none
  | .div => if s.sp ≤ 0 then some .stackUnderflow else if s.cell s.sp = some 0 then some .divideByZero else none
  | .slt => if s.sp ≤ 0 then some .stackUnderflow else none
  | .mov a b =>
    if namesRegister a = false then some (.invalidRegister 0 a)
    else if namesDestination b = false then some (.invalidRegister 1 b) else none
  | .set a _ => if namesDestination a = false then some (.invalidRegister 0 a) else none
  | .log a => if namesRegister a = false then some (.invalidRegister 0 a) else none
  | .if_ a _ _ => if namesRegister a = false then some (.invalidRegister 0 a) else none
  | .ifn a _ _ => if namesRegister a = false then some (.invalidRegister 0 a) else none
  | .gld a =>
    if namesRegister a = false then some (.invalidRegister 0 a) else if s.sp = 9 then some .stackOverflow else none
  | .gpt a =>
    if namesDestination a = false then some (.invalidRegister 0 a) else if s.sp = -1 then some .stackUnderflow else none := by
  cases i with
  | hlt => rfl
  | nop => rfl
  | psh v =>
    simp only [raised, Instr.mnemonic, Mnemonic.staged, effect, applyPsh]
    rcases pushed_total hi v with ⟨h, e⟩ | ⟨h, e⟩ <;> simp [e, h]
  | pop =>
    simp only [raised, Instr.mnemonic, Mnemonic.staged, consumedBy, previewOne]
    rcases hi.peek_zero with ⟨h, e⟩ | ⟨h, v, -, e⟩ <;> simp [e, h]
  | add => exact hi.raised_two
  | sub => exact hi.raised_two
  | mul => exact hi.raised_two
  | slt => exact hi.raised_two
  | div =>
    simp only [raised, Instr.mnemonic, Mnemonic.staged, consumedBy]
    rcases divOperands_cases s with ⟨b, a, hb, ha, h0, e⟩ | ⟨⟨b, hb⟩, ha, e⟩ | ⟨h, e⟩
    · have := hi.two_cells_iff.1 ⟨b, a, hb, ha⟩
      rw [e, if_neg (by omega), if_neg (by simp [ha, h0])]; rfl
    · have := hi.two_cells_iff.1 ⟨b, 0, hb, ha⟩
      rw [e, if_neg (by omega), if_pos ha]; rfl
    · have : ¬ 1 ≤ s.sp := fun h1 => by
        obtain ⟨b, a, hb, ha⟩ := hi.two_cells_iff.2 h1
        simp [hb, ha] at h
      rw [e, if_pos (by omega)]; rfl
  | mov x y =>
    simp only [raised, Instr.mnemonic, Mnemonic.staged, effect]
    rcases applyMov_cases x y s with ⟨a, b, rfl, rfl, hb, e⟩ | ⟨h, e⟩ | ⟨h, h', e⟩
    · simp [e, (namesRegister_iff _).2 ⟨a, rfl⟩, (namesDestination_iff _).2 ⟨b, rfl, hb⟩]
    · simp [e, h]
    · simp [e, h, h']
  | set x v =>
    simp only [raised, Instr.mnemonic, Mnemonic.staged, effect, applySet]
    rcases dstOperand_cases 0 x with ⟨b, rfl, hb, e⟩ | ⟨h, e⟩
    · simp [e, (namesDestination_iff _).2 ⟨b, rfl, hb⟩]
    · simp [e, h]
  | log x =>
    simp only [raised, Instr.mnemonic, Mnemonic.staged, effect, applyLog]
    rcases regOperand_cases 0 x with ⟨b, rfl, e⟩ | ⟨h, e⟩
    · simp [e, (namesRegister_iff _).2 ⟨b, rfl⟩]
    · simp [e, h]
  | if_ x v w =>
    simp only [raised, Instr.mnemonic, Mnemonic.staged, effect, applyIf]
    rcases regOperand_cases 0 x with ⟨b, rfl, e⟩ | ⟨h, e⟩
    · simp [e, (namesRegister_iff _).2 ⟨b, rfl⟩]
    · simp [e, h]
  | ifn x v w =>
    simp only [raised, Instr.mnemonic, Mnemonic.staged, effect, applyIfn]
    rcases regOperand_cases 0 x with ⟨b, rfl, e⟩ | ⟨h, e⟩
    · simp [e, (namesRegister_iff _).2 ⟨b, rfl⟩]
    · simp [e, h]
  | gld x =>
    simp only [raised, Instr.mnemonic, Mnemonic.staged, effect, applyGld]
    rcases regOperand_cases 0 x with ⟨b, rfl, e⟩ | ⟨h, e⟩
    · rcases pushed_total hi (s.reg b) with ⟨h, e'⟩ | ⟨h, e'⟩ <;> simp [e', h, (namesRegister_iff _).2 ⟨b, rfl⟩]
    · simp [e, h]
  | gpt x =>
    simp only [raised, Instr.mnemonic, Mnemonic.staged, effect, applyGpt]
    rcases dstOperand_cases 0 x with ⟨b, rfl, hb, e⟩ | ⟨h, e⟩
    · rcases hi.peek_zero with ⟨h, e'⟩ | ⟨h, v, -, e'⟩ <;> simp [e, e', h, (namesDestination_iff _).2 ⟨b, rfl, hb⟩]
    · simp [e, h]

/-! ## Operand errors, in any state -/

/-- The first illegal register operand of an instruction (40_dispatch.md R103, R104). -/
def badOperand : Instr → Option Error
  | .mov a b =>
    if namesRegister a = false then some (.invalidRegister 0 a)
    else if namesDestination b = false then some (.invalidRegister 1 b) else none
  | .set a _ => if namesDestination a = false then some (.invalidRegister 0 a) else none
  | .log a => if namesRegister a = false then some (.invalidRegister 0 a) else none
  | .if_ a _ _ => if namesRegister a = false then some (.invalidRegister 0 a) else none
  | .ifn a _ _ => if namesRegister a = false then some (.invalidRegister 0 a) else none
  | .gld a => if namesRegister a = false then some (.invalidRegister 0 a) else none
  | .gpt a => if namesDestination a = false then some (.invalidRegister 0 a) else none
  | .hlt => none
  | .nop => none
  | .psh _ => none
  | .pop => none
  | .add => none
  | .sub => none
  | .mul => none
  | .div => none
  | .slt => none

/-- An instruction is well-formed exactly where no register operand is illegal. -/
theorem badOperand_none_iff (i : Instr) : badOperand i = none ↔ i.wellFormed = true := by
  cases i <;> simp [badOperand, Instr.wellFormed, ite_eq_iff]

theorem pushed_error {v : Int} {s : State} {e : Error} (h : pushed v s = .error (.raise e)) : e = .stackOverflow := by
  unfold pushed at h
  rcases push_cases v s with ⟨-, e'⟩ | ⟨-, -, -, e'⟩ | ⟨-, -, e'⟩ <;> rw [e'] at h <;> cases h
  rfl

theorem consumedBy_error {m : Staged} {s : State} {e : Error} (h : consumedBy m s = .error (.raise e)) :
    e = .stackUnderflow ∨ e = .divideByZero := by
  cases m with
  | pop =>
    simp only [consumedBy, previewOne] at h
    cases hp : peek 0 s with
    | ok v => simp [hp] at h
    | error e' =>
      obtain ⟨-, rfl⟩ := peek_error_iff.1 hp
      rw [hp] at h
      cases h
      exact .inl rfl
  | div =>
    simp only [consumedBy] at h
    rcases divOperands_cases s with ⟨_, _, -, -, -, e'⟩ | ⟨-, -, e'⟩ | ⟨-, e'⟩ <;> rw [e'] at h <;> cases h
    · exact .inr rfl
    · exact .inl rfl
  | add =>
    simp only [consumedBy] at h
    rcases twoOperands_cases s with ⟨_, _, -, -, e'⟩ | ⟨-, e'⟩ <;> rw [e'] at h <;> cases h
    exact .inl rfl
  | sub =>
    simp only [consumedBy] at h
    rcases twoOperands_cases s with ⟨_, _, -, -, e'⟩ | ⟨-, e'⟩ <;> rw [e'] at h <;> cases h
    exact .inl rfl
  | mul =>
    simp only [consumedBy] at h
    rcases twoOperands_cases s with ⟨_, _, -, -, e'⟩ | ⟨-, e'⟩ <;> rw [e'] at h <;> cases h
    exact .inl rfl
  | slt =>
    simp only [consumedBy] at h
    rcases twoOperands_cases s with ⟨_, _, -, -, e'⟩ | ⟨-, e'⟩ <;> rw [e'] at h <;> cases h
    exact .inl rfl

/-- An illegal register operand is the error, whatever the state. -/
theorem raised_of_badOperand {i : Instr} {e : Error} (s : State) (h : badOperand i = some e) : raised i s = some e := by
  cases i <;> simp only [badOperand, reduceCtorEq] at h
  case mov x y =>
    simp only [raised, Instr.mnemonic, Mnemonic.staged, effect]
    rcases applyMov_cases x y s with ⟨a, b, rfl, rfl, hb, e'⟩ | ⟨hx, e'⟩ | ⟨hx, hy, e'⟩
    · simp [(namesRegister_iff _).2 ⟨a, rfl⟩, (namesDestination_iff _).2 ⟨b, rfl, hb⟩] at h
    · simpa [e', hx] using h
    · simpa [e', hx, hy] using h
  case set x v =>
    split at h <;> cases h
    rename_i hx
    simp [raised, Instr.mnemonic, Mnemonic.staged, effect, applySet, dstOperand_error hx]
  case log x =>
    split at h <;> cases h
    rename_i hx
    simp [raised, Instr.mnemonic, Mnemonic.staged, effect, applyLog, regOperand_error hx]
  case if_ x v w =>
    split at h <;> cases h
    rename_i hx
    simp [raised, Instr.mnemonic, Mnemonic.staged, effect, applyIf, regOperand_error hx]
  case ifn x v w =>
    split at h <;> cases h
    rename_i hx
    simp [raised, Instr.mnemonic, Mnemonic.staged, effect, applyIfn, regOperand_error hx]
  case gld x =>
    split at h <;> cases h
    rename_i hx
    simp [raised, Instr.mnemonic, Mnemonic.staged, effect, applyGld, regOperand_error hx]
  case gpt x =>
    split at h <;> cases h
    rename_i hx
    simp [raised, Instr.mnemonic, Mnemonic.staged, effect, applyGpt, dstOperand_error hx]

/-- With legal operands an instruction that is applied at once raises only the state's errors. -/
theorem effect_error {i : Instr} {s : State} {e : Error} (hm : i.mnemonic.staged = none) (hw : i.wellFormed = true)
    (he : effect i s = .error (.raise e)) : e = .stackOverflow ∨ e = .stackUnderflow := by
  cases i <;> try cases hm
  case hlt => cases he
  case nop => cases he
  case psh v => exact .inl (pushed_error he)
  case mov x y =>
    simp only [Instr.wellFormed, Bool.and_eq_true] at hw
    rcases applyMov_cases x y s with ⟨_, _, -, -, -, e'⟩ | ⟨hx, -⟩ | ⟨-, hy, -⟩
    · simp [effect, e'] at he
    · simp [hx] at hw
    · simp [hy] at hw
  case set x v =>
    rcases dstOperand_cases 0 x with ⟨_, -, -, e'⟩ | ⟨hx, -⟩
    · simp [effect, applySet, e'] at he
    · simp [Instr.wellFormed, hx] at hw
  case log x =>
    rcases regOperand_cases 0 x with ⟨_, -, e'⟩ | ⟨hx, -⟩
    · simp [effect, applyLog, e'] at he
    · simp [Instr.wellFormed, hx] at hw
  case if_ x v w =>
    rcases regOperand_cases 0 x with ⟨_, -, e'⟩ | ⟨hx, -⟩
    · simp [effect, applyIf, e'] at he
    · simp [Instr.wellFormed, hx] at hw
  case ifn x v w =>
    rcases regOperand_cases 0 x with ⟨_, -, e'⟩ | ⟨hx, -⟩
    · simp [effect, applyIfn, e'] at he
    · simp [Instr.wellFormed, hx] at hw
  case gld x =>
    rcases regOperand_cases 0 x with ⟨_, -, e'⟩ | ⟨hx, -⟩
    · simp only [effect, applyGld, e'] at he
      exact .inl (pushed_error he)
    · simp [Instr.wellFormed, hx] at hw
  case gpt x =>
    rcases dstOperand_cases 0 x with ⟨_, -, -, e'⟩ | ⟨hx, -⟩
    · cases hp : peek 0 s with
      | ok v => simp [effect, applyGpt, e', hp] at he
      | error e'' =>
        obtain ⟨-, rfl⟩ := peek_error_iff.1 hp
        simp only [effect, applyGpt, e', hp] at he
        cases he
        exact .inr rfl
    · simp [Instr.wellFormed, hx] at hw

/-- With legal operands only the state's errors are left. -/
theorem raised_of_wellFormed {i : Instr} {s : State} {e : Error} (hw : i.wellFormed = true) (h : raised i s = some e) :
    e = .stackOverflow ∨ e = .stackUnderflow ∨ e = .divideByZero := by
  unfold raised at h
  split at h
  · rename_i hm
    split at h <;> cases h
    rename_i he
    rcases effect_error hm hw he with h | h
    · exact .inl h
    · exact .inr (.inl h)
  · split at h <;> cases h
    exact .inr (consumedBy_error ‹_›)

end Sys2Proof.Machine
end

