-- ==== Sys2Proof/Laws/Frames.lean ====
section
/-! SUPPORT. What each effect writes and what it leaves, said once: the registers and cells of an `apply`, the frame of
`exec`, and that no command reads the outputs of the last transaction. -/

namespace Sys2Proof.Machine

/-! ## What an effect writes -/

/-- A push by PSH or GLD writes SP and the new top cell. -/
theorem pushed_writes {v : Int} {s : State} {a : Applied} (h : pushed v s = .ok a) :
    a.regs = [.SP] ∧ a.cells = [s.sp + 1] ∧ a.state.sp = s.sp + 1 := by
  unfold pushed at h
  rcases push_cases v s with ⟨-, e⟩ | ⟨hs, h0, h1, e⟩ | ⟨-, -, e⟩ <;> rw [e] at h <;> cases h
  simp

/-- The registers and cells of a successful effect. -/
theorem effect_writes {i : Instr} {s : State} {a : Applied} (hst : i.mnemonic.staged = none) (h : effect i s = .ok a) :
    a.regs = written i ∧ a.cells = cellsWritten s i ∧
      (written i = [.SP] → a.state.sp = s.sp + 1 ∧ ((∃ v, i = .psh v) ∨ ∃ r, i = .gld r)) := by
  cases i <;> try cases hst
  case hlt => cases h; simp [written, cellsWritten]
  case nop => cases h; simp [written, cellsWritten]
  case psh v => obtain ⟨h1, h2, h3⟩ := pushed_writes h; simp [written, cellsWritten, h1, h2, h3]
  case mov x y =>
    rcases applyMov_cases x y s with ⟨_, b, rfl, rfl, hb, e⟩ | ⟨-, e⟩ | ⟨-, -, e⟩ <;> simp only [effect, e] at h <;> cases h
    simp [written, cellsWritten, wroteReg, hb]
  case set x v =>
    rcases dstOperand_cases 0 x with ⟨b, rfl, hb, e⟩ | ⟨-, e⟩ <;> simp only [effect, applySet, e] at h <;> cases h
    simp [written, cellsWritten, wroteReg, hb]
  case log x =>
    rcases regOperand_cases 0 x with ⟨b, rfl, e⟩ | ⟨-, e⟩ <;> simp only [effect, applyLog, e] at h <;> cases h
    simp [written, cellsWritten]
  case if_ x v w =>
    rcases regOperand_cases 0 x with ⟨b, rfl, e⟩ | ⟨-, e⟩ <;> simp only [effect, applyIf, e] at h <;> cases h
    simp [written, cellsWritten, branchTo]
  case ifn x v w =>
    rcases regOperand_cases 0 x with ⟨b, rfl, e⟩ | ⟨-, e⟩ <;> simp only [effect, applyIfn, e] at h <;> cases h
    simp [written, cellsWritten, branchTo]
  case gld x =>
    rcases regOperand_cases 0 x with ⟨b, rfl, e⟩ | ⟨-, e⟩ <;> simp only [effect, applyGld, e] at h
    · obtain ⟨h1, h2, h3⟩ := pushed_writes h; simp [written, cellsWritten, h1, h2, h3]
    · cases h
  case gpt x =>
    rcases dstOperand_cases 0 x with ⟨b, rfl, hb, e⟩ | ⟨-, e⟩ <;> simp only [effect, applyGpt, e] at h
    · cases hp : peek 0 s with
      | error e' => simp [hp] at h
      | ok v =>
        simp only [hp] at h
        cases h
        simp [written, cellsWritten, wroteReg, hb]
    · cases h

/-- The registers and cells of a successful `apply` at commit. -/
theorem applyPending_writes {m : Staged} {s : State} {a : Applied} (h : applyPending m s = .ok a) :
    a.regs = [.SP] ∧ a.cells = cellsCommitted s m ∧ a.state.sp = s.sp - 1 := by
  cases m
  case pop =>
    simp only [applyPending, applyPop] at h
    rcases pop_cases s with ⟨-, e⟩ | ⟨hs, v, hv, e⟩ | ⟨-, -, e⟩ <;> rw [e] at h <;> cases h
    simp [cellsCommitted]
  case add => simp only [applyPending, applyAdd, applyBinary] at h; split at h <;> cases h; simp [cellsCommitted]
  case sub => simp only [applyPending, applySub, applyBinary] at h; split at h <;> cases h; simp [cellsCommitted]
  case mul => simp only [applyPending, applyMul, applyBinary] at h; split at h <;> cases h; simp [cellsCommitted]
  case div => simp only [applyPending, applyDiv, applyBinary] at h; split at h <;> cases h; simp [cellsCommitted]
  case slt => simp only [applyPending, applySlt, applyBinary] at h; split at h <;> cases h; simp [cellsCommitted]

/-! ## The frame of `exec` -/

/-- Everything a next state of `exec` can differ in. -/
theorem exec_frame {i : Instr} {s t : State} (h : exec i s = .next t) :
    s.KeepsRegsBut t (if i.mnemonic.staged = none then .IP :: written i else []) ∧
      s.KeepsCellsBut t (cellsWritten s i) ∧ t.input = s.input ∧
      (t.engine = s.engine ∨ ∃ m, i.mnemonic.staged = some m ∧ t.engine = .awaitingCommit m ∧ s.engine = .idle ∧
        ∃ c, t.response = some (.preview m.mnemonic c)) := by
  rcases exec_cases h with ⟨k, hk, rfl⟩ | ⟨hs, e, rfl⟩ | ⟨hs, m, c, hm, hc, rfl⟩ | ⟨hs, a, hst, he, ha, rfl⟩
  · exact ⟨fun _ _ => rfl, fun _ _ => rfl, rfl, .inl rfl⟩
  · exact ⟨fun _ _ => rfl, fun _ _ => rfl, rfl, .inl rfl⟩
  · exact ⟨fun _ _ => rfl, fun _ _ => rfl, rfl, .inr ⟨m, hm, rfl, hs, c, rfl⟩⟩
  · obtain ⟨h1, h2, -⟩ := effect_writes hst he
    refine ⟨?_, ?_, by simp [ha.input], .inl (by simp [ha.engine])⟩
    · intro r hr
      simp [hst] at hr
      rw [complete_reg _ _ hr.1]
      exact ha.regsKept r (by rw [h1]; exact hr.2) hr.1
    · intro j hj
      rw [complete_cell]
      exact ha.cellsKept j (by rw [h2]; exact hj)

/-! ## No command reads the outputs -/

theorem conclude_answer (m : Mnemonic) (s : State) (r : Option Response) (e : List Event) (b : Except Stop Applied) :
    conclude m (s.answer r e) (Except.map (fun a : Applied => a.answered r e) b) = conclude m s b := by
  match b with
  | .ok a => simp [conclude, Except.map, complete_answered]
  | .error (.raise _) => rfl
  | .error (.fault _) => rfl

theorem exec_answer (i : Instr) (s : State) (r : Option Response) (e : List Event) : exec i (s.answer r e) = exec i s := by
  cases hm : i.mnemonic.staged with
  | none =>
    rw [exec_atOnce hm, exec_atOnce hm, effect_answer]
    unfold execAtOnce
    rw [answer_engine]
    cases s.engine with
    | idle => exact conclude_answer _ _ _ _ _
    | awaitingCommit _ => rfl
  | some m =>
    rw [exec_staged hm, exec_staged hm, consumedBy_answer]
    unfold execStaged execStagedWith
    rw [answer_engine]
    cases s.engine with
    | awaitingCommit _ => rfl
    | idle =>
      match consumedBy m s with
      | .ok c => rfl
      | .error (.raise _) => rfl
      | .error (.fault _) => rfl

theorem runExecute_answer (w : PortWord) (s : State) (r : Option Response) (e : List Event) :
    runExecute w (s.answer r e) = runExecute w s := by
  unfold runExecute
  rw [answer_engine]
  cases s.engine with
  | awaitingCommit _ => rfl
  | idle =>
    cases decode w with
    | ok i => exact exec_answer i s r e
    | error e => cases e; rfl

theorem runCommit_answer (s : State) (r : Option Response) (e : List Event) : runCommit (s.answer r e) = runCommit s := by
  unfold runCommit
  rw [answer_engine]
  cases s.engine with
  | idle => rfl
  | awaitingCommit m =>
    simp only [applyPending_answer]
    match applyPending m s with
    | .ok a => simp [Except.map, complete_answered]
    | .error (.raise _) => rfl
    | .error (.fault _) => rfl

/-- `apply` of a staged opcode carries a replaced engine and replaced outputs along. -/
theorem applyPending_congr {m : Staged} {s : State} {a : Applied} (eng : Engine) (resp : Option Response) (ev : List Event)
    (h : applyPending m s = .ok a) :
    applyPending m (({ s with engine := eng } : State).answer resp ev) =
      .ok { a with state := ({ a.state with engine := eng } : State).answer resp ev } := by
  rw [applyPending_answer, applyPending_withEngine, h]; rfl

end Sys2Proof.Machine
end

