-- ==== Sys2Proof/Laws/PerInstr.lean ====
section
/-! SUPPORT. Statements about every instruction as syntax, one lemma per constructor. -/

namespace Sys2Proof.Laws.Shape

/-- The value is legal for an operand of this kind (spec/30_encoding.md R75, R78). -/
def legal (k : OperandKind) (v : Int) : Bool :=
  match k with
  | .source => namesRegister v
  | .destination => namesDestination v
  | .val => true
  | .target => true

/-- The word of an instruction carries its opcode id, the operands are as many as the opcode has kinds (R72, R76), and
the instruction is well-formed exactly when each operand is legal for its kind (R78). -/
def Statement (i : Instr) : Prop :=
  (encode i).op.toNat = i.mnemonic.id ∧
    i.operands.length = i.mnemonic.operandKinds.length ∧
    i.wellFormed = (i.mnemonic.operandKinds.zip i.operands).all fun p => legal p.1 p.2

theorem hlt : Statement .hlt := ⟨rfl, rfl, rfl⟩
theorem nop : Statement .nop := ⟨rfl, rfl, rfl⟩
theorem psh (val : Int) : Statement (.psh val) := ⟨rfl, rfl, rfl⟩
theorem pop : Statement .pop := ⟨rfl, rfl, rfl⟩
theorem add : Statement .add := ⟨rfl, rfl, rfl⟩
theorem sub : Statement .sub := ⟨rfl, rfl, rfl⟩
theorem mul : Statement .mul := ⟨rfl, rfl, rfl⟩
theorem div : Statement .div := ⟨rfl, rfl, rfl⟩
theorem slt : Statement .slt := ⟨rfl, rfl, rfl⟩
theorem mov (regA regB : Int) : Statement (.mov regA regB) :=
  ⟨rfl, rfl, by simp [Instr.wellFormed, Instr.mnemonic, Instr.operands, Mnemonic.operandKinds, legal]⟩
theorem set (reg val : Int) : Statement (.set reg val) :=
  ⟨rfl, rfl, by simp [Instr.wellFormed, Instr.mnemonic, Instr.operands, Mnemonic.operandKinds, legal]⟩
theorem log (reg : Int) : Statement (.log reg) :=
  ⟨rfl, rfl, by simp [Instr.wellFormed, Instr.mnemonic, Instr.operands, Mnemonic.operandKinds, legal]⟩
theorem if_ (reg val target : Int) : Statement (.if_ reg val target) :=
  ⟨rfl, rfl, by simp [Instr.wellFormed, Instr.mnemonic, Instr.operands, Mnemonic.operandKinds, legal]⟩
theorem ifn (reg val target : Int) : Statement (.ifn reg val target) :=
  ⟨rfl, rfl, by simp [Instr.wellFormed, Instr.mnemonic, Instr.operands, Mnemonic.operandKinds, legal]⟩
theorem gld (reg : Int) : Statement (.gld reg) :=
  ⟨rfl, rfl, by simp [Instr.wellFormed, Instr.mnemonic, Instr.operands, Mnemonic.operandKinds, legal]⟩
theorem gpt (reg : Int) : Statement (.gpt reg) :=
  ⟨rfl, rfl, by simp [Instr.wellFormed, Instr.mnemonic, Instr.operands, Mnemonic.operandKinds, legal]⟩

end Sys2Proof.Laws.Shape
end

