-- ==== Sys2Proof/Tests/Slice0.lean ====
section
/-! SUPPORT. Tests of the model on small states, and a witness for the hypotheses of each obligation. The expected results are
the spec's own: V<n> and S<n> name rows of spec/95_test_vectors.md, R<n> a rule. -/

namespace Sys2Proof.Tests

open Sys2Proof Sys2Proof.Machine

/-! ## Helpers -/

/-- The mode `Idle` state whose stack holds `vs`, the bottom first, with `pc` at `pc` and the other registers 0. -/
def onStack (vs : List Int) (pc : Int) : State :=
  { State.reset with
    regs := { RegFile.baseline with IP := pc, SP := (vs.length : Int) - 1 }
    cells := Vector.ofFn fun i => vs[(i : Nat)]? }

/-- The state of a full stack (V13, V14). -/
def full : State := onStack [0, 1, 2, 3, 4, 5, 6, 7, 8, 9] 20

/-- The state after the announce of `m` from `onStack vs pc`, where the Driver presents `commit` next. -/
def announced (m : Staged) (vs : List Int) (pc : Int) : State :=
  { onStack vs pc with engine := .awaitingCommit m, input := [commitOnly] }

/-- The next state of an outcome, where it has one. -/
def next? (o : Host.Outcome State Fault Refusal) : Option State :=
  match o with
  | .next t => some t
  | _ => none

/-- The response of an outcome. -/
def answer? (o : Host.Outcome State Fault Refusal) : Option Response := (next? o).bind fun t => t.response

/-- `sp`, `pc` and the cells of an outcome. -/
def look (o : Host.Outcome State Fault Refusal) : Option (Int × Int × List (Option Int)) :=
  (next? o).map fun t => (t.sp, t.pc, t.cells.toList.take 3)

/-- The Result of a transaction that does not halt. -/
def res (regs : List (Reg × Int)) (cells : List (Int × Option Int)) (ip : Int) : Option Response :=
  some (.result { changedRegisters := regs, changedStackCells := cells, newIP := ip, halt := false })

/-- The word of `execute(op, a0, a1, a2)`. -/
def word (op : OpByte) (a0 a1 a2 : Int) : PortWord := { op := op, a0 := a0, a1 := a1, a2 := a2 }

/-! ## WellFormed: an ill-formed term for each check (R78) -/

theorem test_wf_mov_source : (Instr.mov 12 0).wellFormed = false := by decide
theorem test_wf_mov_destination : (Instr.mov 3 12).wellFormed = false := by decide
theorem test_wf_mov_to_sp : (Instr.mov 3 11).wellFormed = false := by decide
theorem test_wf_set_range : (Instr.set (-1) 5).wellFormed = false := by decide
theorem test_wf_set_to_sp : (Instr.set 11 (-1)).wellFormed = false := by decide
theorem test_wf_log : (Instr.log 12).wellFormed = false := by decide
theorem test_wf_if : (Instr.if_ 12 0 9).wellFormed = false := by decide
theorem test_wf_ifn : (Instr.ifn (-1) 0 9).wellFormed = false := by decide
theorem test_wf_gld : (Instr.gld 12).wellFormed = false := by decide
theorem test_wf_gpt_range : (Instr.gpt 12).wellFormed = false := by decide
theorem test_wf_gpt_to_sp : (Instr.gpt 11).wellFormed = false := by decide
theorem test_wf_accepts :
    (Instr.mov 11 10).wellFormed = true ∧ (Instr.log 11).wellFormed = true ∧ (Instr.gld 11).wellFormed = true ∧
      (Instr.gpt 10).wellFormed = true ∧ (Instr.psh (-17)).wellFormed = true := by decide

/-! ## Decoding: a word of every constructor, written out from the map of R76 -/

theorem test_decode_hlt : decode (word 0b00000000#8 0 0 0) = .ok .hlt := by decide
theorem test_decode_nop : decode (word 0b00000001#8 99 (-4) 12) = .ok .nop := by decide
theorem test_decode_psh : decode (word 0b00000010#8 5 1 2) = .ok (.psh 5) := by decide
theorem test_decode_pop : decode (word 0b00000011#8 0 0 0) = .ok .pop := by decide
theorem test_decode_add : decode (word 0b00000100#8 1 2 3) = .ok .add := by decide
theorem test_decode_sub : decode (word 0b00000101#8 0 0 0) = .ok .sub := by decide
theorem test_decode_mul : decode (word 0b00000110#8 0 0 0) = .ok .mul := by decide
theorem test_decode_div : decode (word 0b00000111#8 0 0 0) = .ok .div := by decide
theorem test_decode_slt : decode (word 0b00001000#8 0 0 0) = .ok .slt := by decide
theorem test_decode_mov : decode (word 0b00001001#8 0 3 7) = .ok (.mov 0 3) := by decide
theorem test_decode_set : decode (word 0b00001010#8 7 (-1) 4) = .ok (.set 7 (-1)) := by decide
theorem test_decode_log : decode (word 0b00001011#8 1 5 6) = .ok (.log 1) := by decide
theorem test_decode_if : decode (word 0b00001100#8 2 1 22) = .ok (.if_ 2 1 22) := by decide
theorem test_decode_ifn : decode (word 0b00001101#8 0 0 3) = .ok (.ifn 0 0 3) := by decide
theorem test_decode_gld : decode (word 0b00001110#8 11 0 0) = .ok (.gld 11) := by decide
theorem test_decode_gpt : decode (word 0b00001111#8 10 0 0) = .ok (.gpt 10) := by decide
/-- V110, V113. -/
theorem test_decode_invalid :
    decode (word 16#8 0 0 0) = .error (.invalidOpcode 16#8) ∧ decode (word 18#8 12 0 0) = .error (.invalidOpcode 18#8) ∧
      decode (word 255#8 0 0 0) = .error (.invalidOpcode 255#8) := by decide
theorem test_table_word : decodeTableWord 8 9 = some (.mov 0 0) ∧ decodeTableWord 8 16 = none := by decide
/-- The words `2, 5` of P1 as a program of positions (R79). -/
theorem test_positions : programAt [2, 5, 2, 3, 4, 15, 0, 0] 2 = some (.psh 3, [4, 15, 0, 0]) := by decide
theorem test_fetch : step (State.reset.withFetchWord 8 1) = exec .nop State.reset := by rfl

/-! ## Instructions -/

/-- V1. -/
theorem test_hlt : answer? (exec .hlt (onStack [8] 7)) =
    some (.result { changedRegisters := [], changedStackCells := [], newIP := 7, halt := true }) := by decide
/-- V1. -/
theorem test_hlt_events : (next? (exec .hlt (onStack [8] 7))).map (·.events) = some [.onLog (.mnemonic .HLT) none false] := by
  decide
/-- V3. -/
theorem test_nop : look (exec .nop State.reset) = some (-1, 1, [none, none, none]) := by decide
/-- V11. -/
theorem test_psh : answer? (exec (.psh (-17)) State.reset) = res [(.SP, 0)] [(0, some (-17))] 2 := by decide
/-- V14. -/
theorem test_psh_full : answer? (exec (.psh 99) full) = some (.error .stackOverflow) := by decide
/-- V15. -/
theorem test_pop_announce : answer? (exec .pop (onStack [6, 0] 4)) = some (.preview .POP [(1, 0)]) := by decide
/-- V16. -/
theorem test_pop_commit : look (step (announced .pop [6, 0] 4)) = some (0, 5, [some 6, none, none]) := by decide
/-- V20 (S1). -/
theorem test_add_announce : answer? (exec .add (onStack [5, 3] 4)) = some (.preview .ADD [(1, 3), (0, 5)]) := by decide
/-- V58. -/
theorem test_add_commit : look (step (announced .add [1, 2, 3] 4)) = some (1, 5, [some 1, some 5, none]) := by decide
/-- V25. -/
theorem test_sub_commit : look (step (announced .sub [3, 10] 4)) = some (0, 5, [some (-7), none, none]) := by decide
/-- V52. -/
theorem test_sub_underflow : answer? (exec .sub (onStack [5] 2)) = some (.error .stackUnderflow) := by decide
/-- V30: exact at 2^64. -/
theorem test_mul_commit : look (step (announced .mul [4294967296, 4294967296] 4)) =
    some (0, 5, [some 18446744073709551616, none, none]) := by decide
/-- V33: toward zero. -/
theorem test_div_commit : look (step (announced .div [-7, 2] 4)) = some (0, 5, [some (-3), none, none]) := by decide
/-- V55: underflow before division by zero. -/
theorem test_div_errors : answer? (exec .div (onStack [0] 2)) = some (.error .stackUnderflow) ∧
    answer? (exec .div (onStack [6, 0] 4)) = some (.error .divideByZero) := by decide
/-- V44: signed. -/
theorem test_slt_commit : look (step (announced .slt [-1, 0] 4)) = some (0, 5, [some 1, none, none]) := by decide
/-- V43: equal gives 0. -/
theorem test_slt_equal : answer? (step (announced .slt [4, 4] 4)) = res [(.SP, 0)] [(0, some 0), (1, none)] 5 := by decide
/-- V66: SP is a legal source. -/
theorem test_mov : answer? (exec (.mov 11 1) (onStack [4, 4] 3)) = res [(.B, 1)] [] 6 := by decide
/-- V73: the source's range comes before the destination. -/
theorem test_mov_error : answer? (exec (.mov 12 11) State.reset) = some (.error (.invalidRegister 0 12)) := by decide
/-- V68: written, then advanced. -/
theorem test_set_ip : answer? (exec (.set 10 7) State.reset) = res [] [] 10 := by decide
/-- V71: even where the value equals `sp`. -/
theorem test_set_sp : answer? (exec (.set 11 (-1)) State.reset) = some (.error (.invalidRegister 0 11)) := by decide
/-- V78. -/
theorem test_log : (next? (exec (.log 11) (onStack [1, 2, 3] 5))).map (·.events) =
    some [.onLog (.mnemonic .LOG) (some (.SP, 2)) false, .onIPChanged 7] := by decide
/-- V84: the target is not range-checked. -/
theorem test_if_taken : look (exec (.if_ 0 0 (-5)) State.reset) = some (-1, -5, [none, none, none]) := by decide
/-- V81: not taken, by 4. -/
theorem test_if_not_taken : answer? (exec (.if_ 2 1 22) (onStack [] 14)) = res [] [] 18 := by decide
/-- V89, with 2^70. -/
theorem test_ifn_taken : answer? (exec (.ifn 0 5 1180591620717411303424) State.reset) =
    res [] [] 1180591620717411303424 := by decide
/-- V83. -/
theorem test_ifn_not_taken : answer? (exec (.ifn 0 0 3) (onStack [] 11)) = res [] [] 15 := by decide
/-- V91: the old SP. -/
theorem test_gld_sp : look (exec (.gld 11) State.reset) = some (0, 2, [some (-1), none, none]) := by decide
/-- V94: the register check comes before the overflow. -/
theorem test_gld_error : answer? (exec (.gld 12) full) = some (.error (.invalidRegister 0 12)) := by decide
/-- V100. -/
theorem test_gpt : answer? (exec (.gpt 9) (onStack [8] 5)) = res [(.EXA, 8)] [] 7 := by decide
/-- V99. -/
theorem test_gpt_ip : answer? (exec (.gpt 10) (onStack [5] 2)) = res [] [] 7 := by decide

/-! ## Protocol -/

/-- V114: Busy comes before every check. -/
theorem test_busy : answer? (step ((announced .div [7, 2] 4).present (executeOf (word 16#8 0 0 0)))) =
    some (.rejected .busy) := by decide
/-- V122. -/
theorem test_nothing_pending : answer? (step (State.reset.present commitOnly)) = some (.rejected .nothingPending) := by decide
/-- V121: reset discards the pending division. -/
theorem test_reset : (next? (step ((announced .div [7, 2] 4).present resetOnly))).map (fun t => (t.sp, t.pc, t.mode)) =
    some (-1, 0, .idle) := by decide
/-- V111. -/
theorem test_invalid_opcode : answer? (step (State.reset.present (executeOf (word 255#8 0 0 0)))) =
    some (.error (.invalidOpcode 255#8)) := by decide
theorem test_reset_inv : State.reset.Inv := by decide
theorem test_catalog : catalog.length = 16 := by decide
/-- R80: `IF C, 1, 22`, `SET J, -1`, `ADD`. -/
theorem test_listing :
    listing (.if_ 2 1 22) = some "IF C, 1, 22" ∧ listing (.set 7 (-1)) = some "SET J, -1" ∧ listing .add = some "ADD" ∧
      listing (.gld 12) = none := by decide

/-! ## Witnesses: the hypotheses of each obligation can be met, clause by clause -/

theorem witness_ResetIsTheBaseline : Reg.A ≠ .SP ∧ Reg.IP ≠ .SP := by decide
theorem witness_EveryStepKeepsTheInvariant :
    (announced .add [5, 3] 4).Inv ∧ (∃ t, step (announced .add [5, 3] 4) = .next t) := ⟨by decide, _, rfl⟩
theorem witness_EveryPresentationIsAnswered :
    (announced .div [7, 2] 4).Inv ∧ (announced .div [7, 2] 4).input = commitOnly :: [] := ⟨by decide, rfl⟩
/-- Reset beside a command: the command gets no response (R231). -/
theorem witness_EveryPresentationIsAnswered_resetBeside :
    ((onStack [7, 2] 4).present ⟨true, some .commit⟩).Inv ∧
      ((onStack [7, 2] 4).present ⟨true, some .commit⟩).input = ⟨true, some .commit⟩ :: [] ∧
      (∃ t, step ((onStack [7, 2] 4).present ⟨true, some .commit⟩) = .next t ∧ t.response = none) :=
  ⟨by decide, rfl, _, rfl, rfl⟩
theorem witness_NothingHappensWithoutACommand :
    (onStack [1] 2).input = [] ∧ ((onStack [1] 2).present ⟨false, none⟩).input = ⟨false, none⟩ :: [] := ⟨rfl, rfl⟩
theorem witness_ErrorsLeaveNoTrace :
    ∃ t, step ((onStack [6, 0] 4).present (executeOf (word 7#8 0 0 0))) = .next t ∧ t.response = some (.error .divideByZero) :=
  ⟨_, rfl, by decide⟩
theorem witness_ErrorsRepeat :
    ∃ t, step (full.present (executeOf (word 2#8 99 0 0))) = .next t ∧ t.response = some (.error .stackOverflow) :=
  ⟨_, rfl, by decide⟩
theorem witness_RejectionsChangeNothing_busy :
    ∃ t, step ((announced .pop [6] 4).present (executeOf (word 1#8 0 0 0))) = .next t ∧
      t.response = some (.rejected .busy) := ⟨_, rfl, by decide⟩
theorem witness_RejectionsChangeNothing_nothingPending :
    ∃ t, step (State.reset.present commitOnly) = .next t ∧ t.response = some (.rejected .nothingPending) :=
  ⟨_, rfl, by decide⟩
theorem witness_ExecuteWhileAwaitingCommitIsBusy : (announced .slt [1, 2] 4).pending = some .slt := by decide
theorem witness_BusyExecuteDoesNotDisturbTheCommit :
    (announced .div [7, 2] 4).mode = .awaitingCommit ∧
      ∃ t, step ((announced .div [7, 2] 4).present (executeOf (word 1#8 0 0 0))) = .next t := ⟨by decide, _, rfl⟩
theorem witness_CommitInIdleIsRejected : (onStack [7] 2).mode = .idle := by decide
theorem witness_ErrorEmitsExactlyOneLog :
    (∃ t, step ((onStack [] 0).present (executeOf (word 3#8 0 0 0))) = .next t ∧
      t.response = some (.error .stackUnderflow)) ∧
    (∃ t, step ((onStack [] 0).present (executeOf (word 16#8 0 0 0))) = .next t ∧
      t.response = some (.error (.invalidOpcode 16#8))) := ⟨⟨_, rfl, by decide⟩, ⟨_, rfl, by decide⟩⟩
theorem witness_SuccessEventsFollowTheResult_execute :
    ∃ t r, step (State.reset.present (executeOf (word 2#8 5 0 0))) = .next t ∧ t.response = some (.result r) :=
  ⟨_, _, rfl, rfl⟩
theorem witness_SuccessEventsFollowTheResult_commit :
    ∃ t r, step (announced .pop [6] 4) = .next t ∧ t.response = some (.result r) := ⟨_, _, rfl, rfl⟩
theorem witness_NoEventsWithoutResultOrError :
    (∃ t, step (announced .pop [6] 4) = .next t ∧ t.events ≠ []) ∧
    (∃ t, step ((onStack [] 0).present (executeOf (word 3#8 0 0 0))) = .next t ∧ t.events ≠ []) :=
  ⟨⟨_, rfl, by decide⟩, ⟨_, rfl, by decide⟩⟩
theorem witness_ResultReportsEveryWrite :
    ∃ t r, step (announced .mul [6, 7] 4) = .next t ∧ t.response = some (.result r) ∧
      (.SP, 0) ∈ r.changedRegisters ∧ (0, some 42) ∈ r.changedStackCells ∧ (1, none) ∈ r.changedStackCells ∧
      Reg.A ∉ r.changedRegisters.map Prod.fst ∧ (2 : Int) ∉ r.changedStackCells.map Prod.fst :=
  ⟨_, _, rfl, rfl, by decide, by decide, by decide, by decide, by decide⟩
/-- V63: a written register is listed though its value does not change. -/
theorem witness_ResultReportsEveryWrite_execute :
    (State.reset.present (executeOf (word 10#8 0 0 0))).input = executeOf (word 10#8 0 0 0) :: [] ∧
      decode (word 10#8 0 0 0) = .ok (.set 0 0) ∧
      (∃ t, step (State.reset.present (executeOf (word 10#8 0 0 0))) = .next t ∧ t.response = res [(.A, 0)] [] 3) :=
  ⟨rfl, by decide, _, rfl, by decide⟩
theorem witness_ResultReportsEveryWrite_commit :
    (announced .mul [6, 7] 4).input = commitOnly :: [] ∧ (announced .mul [6, 7] 4).pending = some .mul := ⟨rfl, rfl⟩
theorem witness_ResultReportsEveryWrite_halt :
    ∃ t r, step (State.reset.present (executeOf (word 0#8 0 0 0))) = .next t ∧ t.response = some (.result r) ∧
      r.halt = true := ⟨_, _, rfl, rfl, rfl⟩
theorem witness_StepRunsTheDecodedInstruction :
    (State.reset.present (executeOf (word 2#8 5 0 0))).input = executeOf (word 2#8 5 0 0) :: [] ∧
      decode (word 2#8 5 0 0) = .ok (.psh 5) := by decide
theorem witness_DecoderAcceptsExactlyTheSixteenIds :
    decode (word 15#8 0 0 0) = .ok (.gpt 0) ∧ decode (word 16#8 0 0 0) = .error (.invalidOpcode 16#8) := by decide
theorem witness_UnusedPortsAreIgnored :
    (word 10#8 0 7 (-4)).op = (word 10#8 0 7 12).op ∧ Mnemonic.ofOpcode (word 10#8 0 7 12).op = some .SET ∧
      (2 ≤ Mnemonic.SET.operandByteCount) ∧ ¬ (3 ≤ Mnemonic.SET.operandByteCount) ∧
      3 ≤ Mnemonic.IF.operandByteCount := by decide
theorem witness_InvalidOpcodeIsRaisedExactlyAbove15 :
    State.reset.mode = .idle ∧ 16 ≤ (word 16#8 0 0 0).op.toNat ∧ 16 ≤ (word 255#8 0 0 0).op.toNat ∧
      AnswersError (step (State.reset.present (executeOf (word 16#8 0 0 0)))) State.reset (.invalidOpcode 16#8) :=
  ⟨by decide, by decide, by decide, _, rfl, rfl, rfl, rfl, rfl⟩
theorem witness_PushStoresAtTheNewTop :
    full.INV ∧ full.sp = (Config.cap : Int) - 1 ∧ (onStack [0, 1, 2, 3, 4, 5, 6, 7, 8] 18).INV ∧
      (onStack [0, 1, 2, 3, 4, 5, 6, 7, 8] 18).sp ≠ (Config.cap : Int) - 1 ∧
      State.reset.INV ∧ State.reset.sp ≠ (Config.cap : Int) - 1 := by decide
theorem witness_PopReturnsAndEmptiesTheTop :
    State.reset.INV ∧ State.reset.sp = -1 ∧ (onStack [5] 2).INV ∧ (onStack [5] 2).sp ≠ -1 ∧ full.INV ∧ full.sp ≠ -1 := by
  decide
theorem witness_PeekFailsExactlyWithoutAValue :
    State.reset.INV ∧ (onStack [5] 2).INV ∧ peek 1 (onStack [5] 2) = .error (.raise .stackUnderflow) ∧
      peek 0 (onStack [5] 2) = .ok 5 ∧ peek (-1) full = .error (.raise .stackUnderflow) := by decide
theorem witness_PopUndoesPush : State.reset.INV ∧ (∃ t, push 7 State.reset = .ok t) ∧
    (∃ t, push 9 (onStack [0, 1, 2, 3, 4, 5, 6, 7, 8] 18) = .ok t) := ⟨by decide, ⟨_, rfl⟩, ⟨_, rfl⟩⟩
theorem witness_BinaryEffectIsPopPopPush :
    (onStack [5, 3] 4).INV ∧ 1 ≤ (onStack [5, 3] 4).sp ∧ full.INV ∧ 1 ≤ full.sp := by decide
theorem witness_HltOnlySignals : (onStack [8] 7).mode = .idle := by decide
theorem witness_NopOnlyAdvancesPc : State.reset.mode = .idle := by decide
theorem witness_PshPushesItsOperand :
    full.INV ∧ full.mode = .idle ∧ full.sp = (Config.cap : Int) - 1 ∧ (onStack [0, 1, 2, 3, 4, 5, 6, 7, 8] 18).INV ∧
      (onStack [0, 1, 2, 3, 4, 5, 6, 7, 8] 18).mode = .idle ∧
      (onStack [0, 1, 2, 3, 4, 5, 6, 7, 8] 18).sp ≠ (Config.cap : Int) - 1 := by decide
theorem witness_GldPushesARegister :
    full.INV ∧ full.mode = .idle ∧ full.sp = (Config.cap : Int) - 1 ∧ State.reset.INV ∧ State.reset.mode = .idle ∧
      State.reset.sp ≠ (Config.cap : Int) - 1 := by decide
theorem witness_GptCopiesTheTop :
    State.reset.INV ∧ State.reset.mode = .idle ∧ State.reset.sp = -1 ∧ (onStack [8] 5).INV ∧ (onStack [8] 5).mode = .idle ∧
      (onStack [8] 5).cell (onStack [8] 5).sp = some 8 ∧ Reg.A ≠ .SP ∧ Reg.IP ≠ .SP := by decide
theorem witness_MovCopiesARegister : (onStack [] 3).mode = .idle ∧ Reg.D ≠ .SP ∧ Reg.IP ≠ .SP := by decide
theorem witness_SetLoadsAConstant : (onStack [] 0).mode = .idle ∧ Reg.EX ≠ .SP ∧ Reg.IP ≠ .SP := by decide
theorem witness_LogReportsARegister : (onStack [1, 2, 3] 5).mode = .idle := by decide
theorem witness_IfAndIfnBranchOppositely : (onStack [] 14).mode = .idle := by decide
theorem witness_PopDiscardsTheTopAtCommit :
    State.reset.INV ∧ State.reset.mode = .idle ∧ State.reset.sp = -1 ∧ (onStack [5] 2).INV ∧ (onStack [5] 2).mode = .idle ∧
      (onStack [5] 2).cell (onStack [5] 2).sp = some 5 := by decide
theorem witness_AddSubMulSltLeaveTheirResult :
    full.INV ∧ full.mode = .idle ∧ 1 ≤ full.sp ∧ full.cell (full.sp - 1) = some 8 ∧ full.cell full.sp = some 9 ∧
      (onStack [5, 3] 4).INV ∧ 1 ≤ (onStack [5, 3] 4).sp := by decide
theorem witness_DivLeavesTheTruncatedQuotient_zero :
    (onStack [6, 0] 4).INV ∧ (onStack [6, 0] 4).mode = .idle ∧ 1 ≤ (onStack [6, 0] 4).sp ∧
      (onStack [6, 0] 4).cell ((onStack [6, 0] 4).sp - 1) = some 6 ∧
      (onStack [6, 0] 4).cell (onStack [6, 0] 4).sp = some 0 := by decide
theorem witness_DivLeavesTheTruncatedQuotient_nonzero :
    (onStack [-7, 2] 4).INV ∧ (onStack [-7, 2] 4).mode = .idle ∧ 1 ≤ (onStack [-7, 2] 4).sp ∧
      (onStack [-7, 2] 4).cell ((onStack [-7, 2] 4).sp - 1) = some (-7) ∧
      (onStack [-7, 2] 4).cell (onStack [-7, 2] 4).sp = some 2 ∧ (2 : Int) ≠ 0 := by decide
theorem witness_StackOverflowExactlyWhenFull : full.INV ∧ full.mode = .idle ∧ full.sp = (Config.cap : Int) - 1 := by decide
theorem witness_StackUnderflowExactlyWhenTooFew :
    State.reset.INV ∧ State.reset.mode = .idle ∧ (onStack [5] 2).INV ∧ (onStack [5] 2).mode = .idle ∧
      (onStack [5] 2).sp ≤ 0 := by decide
theorem witness_DivideByZeroExactlyOnAZeroDivisor :
    (onStack [0, 0] 4).INV ∧ (onStack [0, 0] 4).mode = .idle ∧ (onStack [0, 6] 4).INV ∧
      (onStack [0, 6] 4).mode = .idle := by decide
theorem witness_InvalidRegisterExactlyWhenIllFormed :
    State.reset.mode = .idle ∧ namesRegister 12 = false ∧ namesRegister (-1) = false ∧ namesRegister 11 = true ∧
      namesRegister 0 = true ∧ namesDestination 11 = false ∧ namesDestination 10 = true := by decide
theorem witness_RegisterFormsKeepTheStack :
    (∃ t, exec .nop (onStack [5] 2) = .next t) ∧ (∃ t, exec (.if_ 0 0 9) (onStack [5] 2) = .next t) ∧
      (∃ t, exec (.mov 0 Reg.SP.number) (onStack [5] 2) = .next t) ∧
      (∃ t, exec (.gpt Reg.IP.number) (onStack [5] 2) = .next t) := ⟨⟨_, rfl⟩, ⟨_, rfl⟩, ⟨_, rfl⟩, ⟨_, rfl⟩⟩
theorem witness_PushingFormsFrame :
    (∃ t, exec (.psh 9) (onStack [5] 2) = .next t) ∧ (∃ t, exec (.gld 11) (onStack [5] 2) = .next t) := ⟨⟨_, rfl⟩, ⟨_, rfl⟩⟩
theorem witness_StagedExecuteChangesOnlyTheMode :
    Instr.div.mnemonic.staged = some .div ∧ (∃ t, exec .div (onStack [7, 2] 4) = .next t) := ⟨rfl, _, rfl⟩
theorem witness_CommitFrame :
    (announced .pop [7, 2] 4).input = commitOnly :: [] ∧ (∃ t, step (announced .pop [7, 2] 4) = .next t) ∧
      (announced .pop [7, 2] 4).pending = some .pop := ⟨rfl, ⟨_, rfl⟩, rfl⟩
theorem witness_OnlyNamedDestinationsAreWritten :
    (State.reset.present (executeOf (word 10#8 8 1 0))).input = executeOf (word 10#8 8 1 0) :: [] ∧
      (executeOf (word 10#8 8 1 0)).reset = false ∧
      (∃ t, step (State.reset.present (executeOf (word 10#8 8 1 0))) = .next t ∧ t.reg .EX ≠ State.reset.reg .EX) ∧
      Reg.EX ≠ .IP ∧ Reg.EX ≠ .SP := ⟨rfl, rfl, ⟨_, rfl, by decide⟩, by decide, by decide⟩
theorem witness_SpMovesOnlyByPushAndPop :
    (∃ t, step (State.reset.present (executeOf (word 14#8 0 0 0))) = .next t ∧ t.sp ≠ State.reset.sp) ∧
      (∃ t, step (announced .add [5, 3] 4) = .next t ∧ t.sp ≠ (announced .add [5, 3] 4).sp) ∧
      commitOnly.reset = false := ⟨⟨_, rfl, by decide⟩, ⟨_, rfl, by decide⟩, rfl⟩
theorem witness_ModeChangesOnlyByAnnounceCommitReset :
    (∃ t, step ((onStack [5, 3] 4).present (executeOf (word 4#8 0 0 0))) = .next t ∧ t.pending = some .add) ∧
      (∃ t, step (announced .add [5, 3] 4) = .next t ∧ (announced .add [5, 3] 4).mode = .awaitingCommit ∧ t.mode = .idle) :=
  ⟨⟨_, rfl, by decide⟩, ⟨_, rfl, by decide, by decide⟩⟩
theorem witness_AnnounceThenCommitIsImmediate :
    Instr.div.mnemonic.staged = some .div ∧ (onStack [7, 2] 4).INV ∧ (onStack [7, 2] 4).mode = .idle ∧
      (onStack [7, 2] 4).pre .div = true := by decide
theorem witness_BinaryOpcodesReduceTheDepthByOne :
    (onStack [5, 3] 4).INV ∧ (onStack [5, 3] 4).mode = .idle ∧ (∃ t, exec .add (onStack [5, 3] 4) = .next t) ∧
      (∃ t, exec .div (onStack [5] 4) = .next t) := ⟨by decide, by decide, ⟨_, rfl⟩, ⟨_, rfl⟩⟩

end Sys2Proof.Tests
end

section
/-! Proofs of the family `00_scope.md`: the block waits where no command is presented. -/

namespace Sys2Proof.Machine

/-- Where the Driver presents nothing more, the step clears the outputs and does nothing else. -/
theorem step_nil {s : State} (h : s.input = []) : step s = .next (s.answer none []) := by
  simp [step, transact, h]

/-- A presentation of neither reset nor a command only takes itself from the input and clears the outputs. -/
theorem step_nothingPresented {s : State} {rest : List Presented} (h : s.input = ⟨false, none⟩ :: rest) :
    step s = .next (({ s with input := rest } : State).answer none []) := by
  simp [step_cons h, runPresented]

/-- Settles O5: in both cases the step answers with the state itself, but for its input and its outputs. -/
theorem nothingHappensWithoutACommand : Obligations.NothingHappensWithoutACommand := by
  unfold Obligations.NothingHappensWithoutACommand
  constructor
  · intro s hs
    exact ⟨_, step_nil hs, sameBlock_answer s none [], hs, rfl, rfl⟩
  · intro s rest hs
    exact ⟨_, step_nothingPresented hs, sameBlock_answer s none [], rfl, rfl, rfl⟩

end Sys2Proof.Machine
end

section
/-! Proofs of the family `10_state.md`: the reset state, the invariant through every transaction, and what a transaction
leaves unchanged. -/

namespace Sys2Proof.Machine

/-! ## Reset -/

theorem reset_reg (r : Reg) : State.reset.reg r = if r = .SP then -1 else 0 := by cases r <;> rfl

theorem reset_Inv : State.reset.Inv := by decide

/-- Under the invariant the occupied cells are `0..sp`, and `sp` is -1 after reset. -/
theorem reset_cell (i : Int) : State.reset.cell i = none := by
  have hsp : State.reset.sp = -1 := reset_reg .SP
  have hempty := mt (reset_Inv.1.occupied_iff i).1 (by omega)
  simpa using hempty

/-- A reset of the block leaves the reset state but for what the Driver presents next. -/
theorem sameBlock_resetBlock (s : State) : State.reset.SameBlock (resetBlock s) := ⟨rfl, rfl, rfl⟩

/-- Settles O1: the Register File is read register by register, and the invariant with `sp = -1` leaves every cell
empty. -/
theorem resetIsTheBaseline : Obligations.ResetIsTheBaseline := by
  unfold Obligations.ResetIsTheBaseline
  exact ⟨fun r hr => by rw [reset_reg, if_neg hr], reset_reg .SP, reset_cell, rfl, rfl⟩

/-- Settles O2: the invariant of the reset state is a closed fact about its ten cells. -/
theorem resetSatisfiesTheInvariant : Obligations.ResetSatisfiesTheInvariant := by
  unfold Obligations.ResetSatisfiesTheInvariant
  exact ⟨reset_Inv, rfl, rfl⟩

/-! ## What one presentation leads to -/

/-- Taking a presentation off the input leaves the block as it is. -/
theorem sameBlock_withInput (s : State) (rest : List Presented) : s.SameBlock { s with input := rest } := ⟨rfl, rfl, rfl⟩

theorem State.SameBlock.reg {s t : State} (h : s.SameBlock t) (r : Reg) : t.reg r = s.reg r := (sameBlock_iff.1 h).1 r

theorem State.SameBlock.keepsRegsBut {s t : State} (h : s.SameBlock t) (rs : List Reg) : s.KeepsRegsBut t rs :=
  fun r _ => h.reg r

theorem State.SameBlock.keepsCellsBut {s t : State} (h : s.SameBlock t) (is : List Int) : s.KeepsCellsBut t is :=
  fun i _ => (sameBlock_iff.1 h).2.1 i

/-- Everything a step can do with the presentation `p` that it takes. -/
theorem step_presented_cases {s t : State} {p : Presented} {rest : List Presented} (hi : s.input = p :: rest)
    (h : step s = .next t) :
    (p.reset = true ∧ t = resetBlock { s with input := rest }) ∨
    (p.reset = false ∧ p.command = none ∧ s.SameBlock t) ∨
    (p.reset = false ∧ ∃ w, p.command = some (.execute w) ∧ runExecute w { s with input := rest } = .next t) ∨
    (p.reset = false ∧ p.command = some .commit ∧ runCommit { s with input := rest } = .next t) := by
  rcases step_cases h with ⟨hnil, -⟩ | ⟨p', rest', hi', hcases⟩
  · simp [hi] at hnil
  · obtain ⟨rfl, rfl⟩ := List.cons.inj (hi.symm.trans hi')
    rcases hcases with hreset | ⟨hr, hc, rfl⟩ | hrun
    · exact .inl hreset
    · exact .inr (.inl ⟨hr, hc, sameBlock_withInput s rest⟩)
    · exact .inr (.inr hrun)

/-- An execute leaves the block unchanged, or it runs the decoded instruction in `Idle`. -/
theorem runExecute_sameBlock_or_exec {w : PortWord} {s t : State} (h : runExecute w s = .next t) :
    s.SameBlock t ∨ (s.engine = .idle ∧ ∃ i, decode w = .ok i ∧ exec i s = .next t) := by
  rcases runExecute_cases h with ⟨_, -, rfl⟩ | ⟨-, -, rfl⟩ | hexec
  · exact .inl (sameBlock_reject _ s)
  · exact .inl (sameBlock_raiseError _ _ s)
  · exact .inr hexec

/-! ## The invariant through a transaction -/

/-- An announce makes the precondition of its own opcode the pending one. -/
theorem pendingPre_announce (m : Staged) (c : List (Int × Int)) (s : State) : (announce m c s).pendingPre = s.pre m := by
  cases m <;> rfl

theorem exec_keeps_Inv {i : Instr} {s t : State} (hs : s.Inv) (h : exec i s = .next t) : t.Inv := by
  rcases exec_cases h with ⟨_, -, rfl⟩ | ⟨-, _, rfl⟩ | ⟨-, m, c, -, hc, rfl⟩ | ⟨hidle, a, -, -, ha, rfl⟩
  · exact (Inv_congr (sameBlock_reject _ s)).2 hs
  · exact (Inv_congr (sameBlock_raiseError _ _ s)).2 hs
  · have hpre : s.pre m = true := (consumedBy_ok_iff hs.1).1 ⟨c, hc⟩
    exact ⟨(INV_congr rfl rfl).2 hs.1, (pendingPre_announce m c s).trans hpre⟩
  · exact Inv_of_idle (INV_complete ha hs.1) (by rw [complete_engine, ha.engine, hidle])

theorem runExecute_keeps_Inv {w : PortWord} {s t : State} (hs : s.Inv) (h : runExecute w s = .next t) : t.Inv := by
  rcases runExecute_sameBlock_or_exec h with hsame | ⟨-, i, -, hexec⟩
  · exact (Inv_congr hsame).2 hs
  · exact exec_keeps_Inv hs hexec

theorem runCommit_keeps_Inv {s t : State} (hs : s.Inv) (h : runCommit s = .next t) : t.Inv := by
  rcases runCommit_cases h with ⟨-, rfl⟩ | ⟨m, a, -, -, ha, rfl⟩
  · exact (Inv_congr (sameBlock_reject _ s)).2 hs
  · exact Inv_of_idle ((INV_congr rfl rfl).2 (INV_complete (m := m.mnemonic) ha hs.1)) rfl

/-- Settles O3: reset establishes the invariant, waiting keeps the block, and each command keeps the invariant. -/
theorem everyStepKeepsTheInvariant : Obligations.EveryStepKeepsTheInvariant := by
  unfold Obligations.EveryStepKeepsTheInvariant
  intro s t hs h
  cases hi : s.input with
  | nil =>
    obtain rfl := Host.Outcome.next.inj ((step_nil hi).symm.trans h)
    exact (Inv_congr (sameBlock_answer s none [])).2 hs
  | cons p rest =>
    have hs' : State.Inv { s with input := rest } := (Inv_congr (sameBlock_withInput s rest)).2 hs
    rcases step_presented_cases hi h with ⟨-, rfl⟩ | ⟨-, -, hsame⟩ | ⟨-, w, -, hrun⟩ | ⟨-, -, hrun⟩
    · exact (Inv_congr (sameBlock_resetBlock _)).2 reset_Inv
    · exact (Inv_congr hsame).2 hs
    · exact runExecute_keeps_Inv hs' hrun
    · exact runCommit_keeps_Inv hs' hrun

/-! ## An execute turned away -/

/-- Settles O11: the execute is answered Busy, which only sets outputs, and a commit does not read them. -/
theorem busyExecuteDoesNotDisturbTheCommit : Obligations.BusyExecuteDoesNotDisturbTheCommit := by
  unfold Obligations.BusyExecuteDoesNotDisturbTheCommit
  intro s t w hmode h
  obtain ⟨k, hk⟩ := (mode_awaiting_iff s).1 hmode
  rw [step_execute, runExecute_busy hk] at h
  obtain rfl := Host.Outcome.next.inj h
  rw [step_commit, step_commit]
  exact runCommit_answer s _ _

/-! ## The frame of an instruction applied at once -/

/-- An instruction applied at once changes IP, what it is said to write, and nothing else. -/
theorem exec_atOnce_frame {i : Instr} {s t : State} (hst : i.mnemonic.staged = none) (h : exec i s = .next t) :
    s.KeepsRegsBut t (.IP :: written i) ∧ s.KeepsCellsBut t (cellsWritten s i) ∧ s.KeepsEngineAndInput t := by
  obtain ⟨hregs, hcells, hinput, hengine⟩ := exec_frame h
  rw [if_pos hst] at hregs
  refine ⟨hregs, hcells, ?_, hinput⟩
  rcases hengine with hkept | ⟨m, hm, -⟩
  · exact hkept
  · simp [hst] at hm

/-- Where the only register to write is SP, an instruction other than PSH and GLD is turned away (D6). -/
theorem exec_keepsRegs_of_written_SP {i : Instr} {s t : State} (hw : written i = [.SP])
    (hpush : ¬ ((∃ v, i = .psh v) ∨ ∃ r, i = .gld r)) (h : exec i s = .next t) : s.KeepsRegsBut t [] := by
  rcases exec_cases h with ⟨_, -, rfl⟩ | ⟨-, _, rfl⟩ | ⟨-, _, _, -, -, rfl⟩ | ⟨-, a, hst, ha, -, -⟩
  · exact fun _ _ => rfl
  · exact fun _ _ => rfl
  · exact fun _ _ => rfl
  · obtain ⟨-, -, hpushes⟩ := effect_writes hst ha
    exact absurd (hpushes hw).2 hpush

/-- The frame of an instruction with a destination register, SP included. -/
theorem exec_destination_frame {i : Instr} {r : Reg} {s t : State} (hst : i.mnemonic.staged = none)
    (hw : written i = [r]) (hc : cellsWritten s i = []) (hpush : ¬ ((∃ v, i = .psh v) ∨ ∃ q, i = .gld q))
    (h : exec i s = .next t) :
    s.KeepsRegsBut t (if r = .SP then [] else [r, .IP]) ∧ s.KeepsCellsBut t [] ∧ s.KeepsEngineAndInput t := by
  obtain ⟨hregs, hcells, hrest⟩ := exec_atOnce_frame hst h
  rw [hc] at hcells
  refine ⟨?_, hcells, hrest⟩
  split
  · subst r
    exact exec_keepsRegs_of_written_SP hw hpush h
  · rw [hw] at hregs
    exact fun q hq => hregs q (by simpa [and_comm] using hq)

/-- Settles O46: the frame of an instruction applied at once, read with what each form writes. -/
theorem registerFormsKeepTheStack : Obligations.RegisterFormsKeepTheStack := by
  unfold Obligations.RegisterFormsKeepTheStack
  intro i s t h
  constructor
  · rintro (rfl | rfl | ⟨_, rfl⟩ | ⟨_, _, _, rfl⟩ | ⟨_, _, _, rfl⟩) <;> exact exec_atOnce_frame rfl h
  · rintro r (⟨_, rfl⟩ | ⟨_, rfl⟩ | rfl) <;> exact exec_destination_frame rfl (by simp [written]) rfl (by simp) h

/-- Settles O47: PSH and GLD write SP and the cell above the top. -/
theorem pushingFormsFrame : Obligations.PushingFormsFrame := by
  unfold Obligations.PushingFormsFrame
  intro i s t hpush h
  have frame : s.KeepsRegsBut t [.IP, .SP] ∧ s.KeepsCellsBut t [s.sp + 1] ∧ s.KeepsEngineAndInput t := by
    rcases hpush with ⟨_, rfl⟩ | ⟨_, rfl⟩ <;> exact exec_atOnce_frame rfl h
  obtain ⟨hregs, hrest⟩ := frame
  exact ⟨fun r hr => hregs r (by simpa [and_comm] using hr), hrest⟩

/-! ## The frame of a commit -/

/-- A commit leaves the block `Idle`: it is rejected without effect, or the pending opcode takes one value off the Stack
and changes no register but SP and IP and no cell but those it consumes. -/
theorem runCommit_frame {s t : State} (h : runCommit s = .next t) :
    t.engine = .idle ∧ t.input = s.input ∧
      (s.SameBlock t ∨ ∃ m, s.engine = .awaitingCommit m ∧ t.sp = s.sp - 1 ∧ s.KeepsRegsBut t [.SP, .IP] ∧
        s.KeepsCellsBut t (cellsCommitted s m)) := by
  rcases runCommit_cases h with ⟨hidle, rfl⟩ | ⟨m, a, hm, happly, ha, rfl⟩
  · exact ⟨hidle, rfl, .inl (sameBlock_reject _ s)⟩
  · obtain ⟨hregs, hcells, hsp⟩ := applyPending_writes happly
    refine ⟨rfl, by simp [ha.input], .inr ⟨m, hm, ?_, ?_, ?_⟩⟩
    · rw [sp_withEngine, complete_sp, hsp]
    · intro r hr
      simp only [List.mem_cons, List.not_mem_nil, or_false, not_or] at hr
      rw [reg_withEngine, complete_reg _ _ hr.2]
      exact ha.regsKept r (by simpa [hregs] using hr.1) hr.2
    · intro i hi
      rw [cell_withEngine, complete_cell]
      exact ha.cellsKept i (by rwa [hcells])

/-- The consumed cells are among the two top ones. -/
theorem cellsCommitted_subset (s : State) (m : Staged) : cellsCommitted s m ⊆ [s.sp - 1, s.sp] := by
  cases m <;> simp [cellsCommitted]

/-- Settles O49: the frame of a commit, with POP's narrower set of cells read from the pending opcode. -/
theorem commitFrame : Obligations.CommitFrame := by
  unfold Obligations.CommitFrame
  intro s t rest hi h
  have hrun : runCommit { s with input := rest } = .next t := (step_cons hi).symm.trans h
  obtain ⟨hengine, hinput, hsame | ⟨m, hm, -, hregs, hcells⟩⟩ := runCommit_frame hrun
  · have hsame : s.SameBlock t := hsame
    exact ⟨hsame.keepsRegsBut _, hsame.keepsCellsBut _, hinput, (mode_idle_iff t).2 hengine,
      fun _ => hsame.keepsCellsBut _⟩
  · refine ⟨hregs, fun i hin => hcells i (mt (@cellsCommitted_subset s m i) hin), hinput,
      (mode_idle_iff t).2 hengine, fun hpop => ?_⟩
    have hm : s.engine = .awaitingCommit m := hm
    obtain rfl : m = .pop := by simpa [hm] using hpop
    exact hcells

/-! ## Which register a transaction changes -/

/-- A register other than SP is written only by an instruction that names it as destination. -/
theorem names_of_mem_written {i : Instr} {r : Reg} (hr : r ≠ .SP) (h : r ∈ written i) :
    (∃ a, i = .mov a r.number) ∨ (∃ v, i = .set r.number v) ∨ i = .gpt r.number := by
  cases i <;> simp only [written, List.not_mem_nil, List.mem_singleton, Option.mem_toList, Reg.ofNumber_eq_some_iff] at h
  case psh => exact absurd h hr
  case gld => exact absurd h hr
  case mov x _ => exact .inl ⟨x, by rw [h]⟩
  case set _ v => exact .inr (.inl ⟨v, by rw [h]⟩)
  case gpt => exact .inr (.inr (by rw [h]))

/-- No instruction writes more than one register beside IP. -/
theorem written_eq_singleton {i : Instr} {r : Reg} (h : r ∈ written i) : written i = [r] := by
  cases i <;> simp_all [written]

/-- SP stays, or it rises by 1 in a PSH or GLD. -/
theorem exec_sp {i : Instr} {s t : State} (h : exec i s = .next t) :
    t.sp = s.sp ∨ (t.sp = s.sp + 1 ∧ ((∃ v, i = .psh v) ∨ ∃ r, i = .gld r)) := by
  rcases exec_cases h with ⟨_, -, rfl⟩ | ⟨-, _, rfl⟩ | ⟨-, _, _, -, -, rfl⟩ | ⟨-, a, hst, heff, ha, rfl⟩
  · exact .inl rfl
  · exact .inl rfl
  · exact .inl rfl
  · obtain ⟨hregs, -, hpushes⟩ := effect_writes hst heff
    rw [complete_sp]
    by_cases hsp : Reg.SP ∈ a.regs
    · exact .inr (hpushes (written_eq_singleton (hregs ▸ hsp)))
    · exact .inl (ha.regsKept .SP hsp (by decide))

/-- Settles O50: only an execute writes a register other than IP and SP, and its frame names the register. -/
theorem onlyNamedDestinationsAreWritten : Obligations.OnlyNamedDestinationsAreWritten := by
  unfold Obligations.OnlyNamedDestinationsAreWritten
  intro s t p rest r hi hreset h hIP hSP hchanged
  rcases step_presented_cases hi h with ⟨hr, -⟩ | ⟨-, -, hsame⟩ | ⟨-, w, hw, hrun⟩ | ⟨-, -, hrun⟩
  · simp [hreset] at hr
  · exact absurd (hsame.reg r) hchanged
  · rcases runExecute_sameBlock_or_exec hrun with hsame | ⟨-, i, hd, hexec⟩
    · exact absurd (hsame.reg r) hchanged
    · obtain ⟨hregs, -⟩ := exec_frame hexec
      have hmem := not_imp_comm.1 (hregs r) hchanged
      split at hmem
      · exact ⟨w, i, hw, hd, names_of_mem_written hSP (List.mem_of_ne_of_mem hIP hmem)⟩
      · simp at hmem
  · obtain ⟨-, -, hsame | ⟨_, -, -, hregs, -⟩⟩ := runCommit_frame hrun
    · exact absurd (hsame.reg r) hchanged
    · exact absurd (hregs r (by simp [hIP, hSP])) hchanged

/-- Settles O51: SP rises in a push, falls in the commit of a pending opcode, and stays in every other transaction. -/
theorem spMovesOnlyByPushAndPop : Obligations.SpMovesOnlyByPushAndPop := by
  unfold Obligations.SpMovesOnlyByPushAndPop
  intro s t p rest hi hreset h hmoved
  rcases step_presented_cases hi h with ⟨hr, -⟩ | ⟨-, -, hsame⟩ | ⟨-, w, hw, hrun⟩ | ⟨-, hc, hrun⟩
  · simp [hreset] at hr
  · exact absurd (hsame.reg .SP) hmoved
  · rcases runExecute_sameBlock_or_exec hrun with hsame | ⟨-, i, hd, hexec⟩
    · exact absurd (hsame.reg .SP) hmoved
    · rcases exec_sp hexec with hkept | ⟨hup, hpush⟩
      · exact absurd hkept hmoved
      · exact .inl ⟨hup, w, i, hw, hd, hpush⟩
  · obtain ⟨-, -, hsame | ⟨m, hm, hdown, -⟩⟩ := runCommit_frame hrun
    · exact absurd (hsame.reg .SP) hmoved
    · exact .inr ⟨hdown, hc, (mode_awaiting_iff s).2 ⟨m, hm⟩⟩

/-! ## The engine through a transaction -/

/-- An execute keeps the engine, or it announces the decoded opcode in `Idle` and answers with its Preview. -/
theorem runExecute_engine {w : PortWord} {s t : State} (h : runExecute w s = .next t) :
    t.engine = s.engine ∨
      ∃ i m c, decode w = .ok i ∧ i.mnemonic = m.mnemonic ∧ s.engine = .idle ∧ t.engine = .awaitingCommit m ∧
        t.response = some (.preview m.mnemonic c) := by
  rcases runExecute_sameBlock_or_exec h with ⟨-, -, hkept⟩ | ⟨-, i, hd, hexec⟩
  · exact .inl hkept
  · obtain ⟨-, -, -, hkept | ⟨m, hm, ht, hs, c, hresp⟩⟩ := exec_frame hexec
    · exact .inl hkept
    · exact .inr ⟨i, m, c, hd, (staged_mnemonic hm).symm, hs, ht, hresp⟩

/-- Settles O52: reset and commit lead to `Idle`, waiting keeps the engine, and an execute keeps it or announces. -/
theorem modeChangesOnlyByAnnounceCommitReset : Obligations.ModeChangesOnlyByAnnounceCommitReset := by
  unfold Obligations.ModeChangesOnlyByAnnounceCommitReset
  intro s t p rest hi h
  simp only [pending_some_iff, mode_idle_iff, mode_awaiting_iff]
  rcases step_presented_cases hi h with ⟨hr, rfl⟩ | ⟨-, -, -, -, hkept⟩ | ⟨hr, w, hw, hrun⟩ | ⟨-, hc, hrun⟩
  · exact ⟨fun m hm => (nomatch hm), fun _ _ => .inl hr⟩
  · exact ⟨fun m hm => .inl (hkept ▸ hm), fun ⟨k, hk⟩ ht => by simp [hkept, hk] at ht⟩
  · rcases runExecute_engine hrun with hkept | ⟨i, m, c, hd, hname, hidle, ht, hresp⟩
    · have hkept : t.engine = s.engine := hkept
      exact ⟨fun m hm => .inl (hkept ▸ hm), fun ⟨k, hk⟩ ht => by simp [hkept, hk] at ht⟩
    · refine ⟨fun m' hm' => .inr ?_, fun _ hidle' => by simp [ht] at hidle'⟩
      obtain rfl : m = m' := by simpa [ht] using hm'
      exact ⟨hidle, hr, w, i, c, hw, hd, hname, hresp⟩
  · obtain ⟨hidle, -⟩ := runCommit_frame hrun
    exact ⟨fun m hm => by simp [hidle] at hm, fun _ _ => .inr hc⟩

end Sys2Proof.Machine
end

section
/-! Proofs of the family `20_memory.md`: the Stack primitives `push`, `pop` and `peek`. -/

namespace Sys2Proof.Machine

/-! ## The algebra of register and cell writes -/

theorem setReg_setReg (s : State) (r : Reg) (v w : Int) : (s.setReg r v).setReg r w = s.setReg r w := by
  simp [State.setReg, RegFile.set_set]

theorem setReg_reg (s : State) (r : Reg) : s.setReg r (s.reg r) = s := by
  simp [State.setReg, State.reg, RegFile.set_get]

theorem setCell_setReg (s : State) (r : Reg) (v i : Int) (c : Option Int) :
    (s.setReg r v).setCell i c = (s.setCell i c).setReg r v := by
  unfold State.setCell
  split <;> rfl

theorem setCell_setCell (s : State) (i : Int) (c d : Option Int) : (s.setCell i c).setCell i d = s.setCell i d := by
  unfold State.setCell
  split <;> simp [*]

/-- A cell written with the content it already has leaves the state as it is. -/
theorem setCell_cell (s : State) (i : Int) : s.setCell i (s.cell i) = s := by
  by_cases hi : 0 ≤ i ∧ i < 10
  · have hcells : (s.setCell i (s.cell i)).cells = s.cells := by
      refine cells_ext fun j => ?_
      rw [cell_setCell _ _ _ _ hi]
      split <;> simp [*]
    unfold State.setCell at hcells ⊢
    rw [if_pos (isCellIndex_iff.2 hi)] at hcells ⊢
    exact congrArg (fun cells => { s with cells := cells }) hcells
  · unfold State.setCell
    rw [if_neg (mt isCellIndex_iff.1 hi)]

/-! ## What a write of one cell and SP leaves -/

/-- A write of one cell of the Stack and of SP is read back, and everything else is as before. -/
theorem setCell_setSP_frame (s : State) {i : Int} (hi : 0 ≤ i ∧ i < 10) (c : Option Int) (n : Int) :
    ((s.setCell i c).setReg .SP n).sp = n ∧ ((s.setCell i c).setReg .SP n).cell i = c ∧
      s.KeepsRegsBut ((s.setCell i c).setReg .SP n) [.SP] ∧ s.KeepsCellsBut ((s.setCell i c).setReg .SP n) [i] ∧
      s.KeepsEngineAndInput ((s.setCell i c).setReg .SP n) := by
  refine ⟨by simp, by simp [cell_setCell _ _ _ _ hi], ?_, ?_, by simp [State.KeepsEngineAndInput]⟩
  · intro r hr
    simp [List.mem_singleton.not.1 hr]
  · intro j hj
    simp [cell_setCell _ _ _ _ hi, List.mem_singleton.not.1 hj]

/-! ## push -/

/-- Settles O25: under `INV` a stack that is not full has its next cell free, and the push writes that cell and SP. -/
theorem pushStoresAtTheNewTop : Obligations.PushStoresAtTheNewTop := by
  unfold Obligations.PushStoresAtTheNewTop
  intro v s hs
  refine ⟨push_full v, fun hsp => ?_⟩
  have hpush := push_of_INV hs v hsp
  rw [setCell_setReg] at hpush
  have hlow := hs.1
  have hhigh := hs.sp_le
  have hroom : s.sp ≠ 9 := hsp
  obtain ⟨htop, hcell, hframe⟩ :=
    setCell_setSP_frame s (i := s.sp + 1) (by omega) (some v) (s.sp + 1)
  exact ⟨_, hpush, htop, hs.cell_none (by omega), by rwa [htop], hframe⟩

/-! ## pop -/

theorem pop_empty {s : State} (h : s.sp = -1) : pop s = .error (.raise .stackUnderflow) := by
  rcases pop_cases s with ⟨-, e⟩ | ⟨hne, -⟩ | ⟨hne, -⟩
  · exact e
  · exact absurd h hne
  · exact absurd h hne

/-- Settles O26: under `INV` a stack that is not empty has a value on top, and the pop writes that cell and SP. -/
theorem popReturnsAndEmptiesTheTop : Obligations.PopReturnsAndEmptiesTheTop := by
  unfold Obligations.PopReturnsAndEmptiesTheTop
  intro s hs
  refine ⟨pop_empty, fun hsp => ?_⟩
  have hlow := hs.1
  obtain ⟨v, hv⟩ := hs.cell_some (i := s.sp) (by omega) le_rfl
  obtain ⟨htop, hcell, hframe⟩ := setCell_setSP_frame s (index_of_cell hv) none (s.sp - 1)
  exact ⟨v, _, pop_of_cell hv, hv, hcell, htop, hframe⟩

/-! ## peek -/

/-- Under `INV`, `peek(k)` fails exactly where there are no more than `k` values. -/
theorem State.INV.peek_underflow_iff {s : State} (hs : s.INV) {k : Int} (hk : 0 ≤ k) :
    peek k s = .error (.raise .stackUnderflow) ↔ s.sp < k := by
  have hoccupied := hs.occupied_iff (s.sp - k)
  rw [peek_error_iff, ← Option.not_isSome_iff_eq_none, hoccupied]
  simp only [and_true]
  omega

/-- Settles O27: the answer is the addressed cell, and `INV` says which cells hold a value. -/
theorem peekFailsExactlyWithoutAValue : Obligations.PeekFailsExactlyWithoutAValue := by
  unfold Obligations.PeekFailsExactlyWithoutAValue
  intro s k
  refine ⟨fun v => peek_ok_iff, fun e he => (peek_error_iff.1 he).2, fun hs => ?_, fun hs => ?_⟩
  · have hlow := hs.1
    rw [hs.peek_underflow_iff le_rfl]
    omega
  · rw [hs.peek_underflow_iff zero_le_one]
    omega

/-! ## The primitives in sequence -/

/-- Settles O28: the cell that the push fills was empty, so emptying it and lowering SP restores the state. -/
theorem popUndoesPush : Obligations.PopUndoesPush := by
  unfold Obligations.PopUndoesPush
  intro v s t hs h
  rcases push_cases v s with ⟨-, e⟩ | ⟨-, h0, h1, e⟩ | ⟨-, -, e⟩ <;> rw [e] at h <;> cases h
  rw [setCell_setReg]
  obtain ⟨htop, hcell, -⟩ := setCell_setSP_frame s ⟨h0, h1⟩ (some v) (s.sp + 1)
  have hempty : s.cell (s.sp + 1) = none := hs.cell_none (by omega)
  have hrestored : (s.setCell (s.sp + 1) none).setReg .SP s.sp = s := by
    rw [← hempty, setCell_cell, ← reg_SP, setReg_reg]
  rw [pop_of_cell (v := v) (by rwa [htop]), htop, setCell_setReg, setCell_setCell, setReg_setReg, add_sub_cancel_right,
    hrestored]

/-- Settles O29: the two pops empty the two top cells, the push fills the lower one again, and of the writes to one cell
or to SP the last one counts. -/
theorem binaryEffectIsPopPopPush : Obligations.BinaryEffectIsPopPopPush := by
  unfold Obligations.BinaryEffectIsPopPopPush
  intro f s hs hsp
  obtain ⟨second, top, hsecond, htop⟩ := hs.two_cells_iff.2 hsp
  have hpop₁ := pop_of_cell htop
  have hinv₁ := INV_pop hs (by omega)
  obtain ⟨hsp₁, -, -, hkept₁, -⟩ := setCell_setSP_frame s (index_of_cell htop) none (s.sp - 1)
  generalize hs₁ : (s.setCell s.sp none).setReg .SP (s.sp - 1) = s₁ at *
  have hsecond₁ : s₁.cell s₁.sp = some second := by
    rw [hsp₁, hkept₁ _ (by simp), hsecond]
  have hpop₂ := pop_of_cell hsecond₁
  have hinv₂ := INV_pop hinv₁ (by omega)
  obtain ⟨hsp₂, -⟩ := setCell_setSP_frame s₁ (index_of_cell hsecond₁) none (s₁.sp - 1)
  have hhigh := hs.sp_le
  have hpush := push_of_INV hinv₂ (f second top) (by omega)
  refine ⟨top, second, s₁, _, _, hpop₁, hpop₂, hpush, ?_⟩
  rw [twoOperands_ok_iff.2 ⟨hsecond, htop⟩, applyBinary_ok, hsp₂, sub_add_cancel, hsp₁]
  simp only [← hs₁, setCell_setReg, setReg_setReg, setCell_setCell]

end Sys2Proof.Machine
end

section
/-! Proofs of the family `30_encoding.md`: the opcode map read in both directions, the ports an opcode reads, the program
form of Drivers, and the Instruction Catalog. -/

namespace Sys2Proof

/-! ## The opcode map -/

/-- The ids count up from 0 in the order of the opcode map (R76). -/
theorem Mnemonic.all_map_id : Mnemonic.all.map Mnemonic.id = List.range 16 := rfl

theorem Mnemonic.exists_id_eq_iff (n : Nat) : (∃ m : Mnemonic, m.id = n) ↔ n ≤ 15 := by
  constructor
  · rintro ⟨m, rfl⟩
    exact m.id_le
  · intro hn
    have hmem : n ∈ Mnemonic.all.map Mnemonic.id := by
      rw [Mnemonic.all_map_id, List.mem_range]
      omega
    obtain ⟨m, -, hm⟩ := List.mem_map.1 hmem
    exact ⟨m, hm⟩

theorem Mnemonic.ofOpcode_eq_some_iff {op : OpByte} {m : Mnemonic} :
    Mnemonic.ofOpcode op = some m ↔ m.id = op.toNat := by
  rw [Mnemonic.ofOpcode_eq_ofId]
  constructor
  · intro h
    split at h
    · exact Mnemonic.id_of_ofId h
    · cases h
  · intro h
    rw [← h, if_pos m.id_le, Mnemonic.ofId_id]

theorem exists_decode_ok_iff (w : PortWord) : (∃ i, decode w = .ok i) ↔ ∃ m, Mnemonic.ofOpcode w.op = some m := by
  simp [decode_ok_iff]

/-! ## The ports an opcode reads -/

/-- Ports beyond the format do not matter (R77). -/
theorem Instr.ofPorts_congr {m : Mnemonic} {a0 a1 a2 b0 b1 b2 : Int} (h0 : 1 ≤ m.operandByteCount → a0 = b0)
    (h1 : 2 ≤ m.operandByteCount → a1 = b1) (h2 : 3 ≤ m.operandByteCount → a2 = b2) :
    Instr.ofPorts m a0 a1 a2 = Instr.ofPorts m b0 b1 b2 := by
  unfold Mnemonic.operandByteCount at h0 h1 h2
  cases m <;> simp_all [Instr.ofPorts, Mnemonic.format, Format.operandCount]

theorem decode_encode (i : Instr) : decode (encode i) = .ok i := by
  rw [encode, decode_of_opcode (Mnemonic.ofOpcode_opcode _), Instr.ofPorts_operands]

/-! ## The program form -/

/-- What follows an instruction's operands in a program lies beyond its format. -/
theorem Instr.ofPorts_operands_append (i : Instr) (rest : List Int) :
    Instr.ofPorts i.mnemonic ((i.operands ++ rest).getD 0 0) ((i.operands ++ rest).getD 1 0)
      ((i.operands ++ rest).getD 2 0) = i := by
  have hport (k : Nat) (hk : k + 1 ≤ i.mnemonic.operandByteCount) :
      (i.operands ++ rest).getD k 0 = i.operands.getD k 0 :=
    List.getD_append _ _ _ _ (by rwa [i.operands_length])
  exact (Instr.ofPorts_congr (hport 0) (hport 1) (hport 2)).trans i.ofPorts_operands

theorem Instr.positions_length (i : Instr) : i.positions.length = i.mnemonic.len := by
  rw [Instr.positions, List.length_cons, Instr.operands_length, Mnemonic.len, Nat.add_comm]

theorem decodePositions_positions_append (i : Instr) (rest : List Int) :
    decodePositions (i.positions ++ rest) = some (i, rest) := by
  have hdrop : (i.operands ++ rest).drop i.mnemonic.operandByteCount = rest :=
    List.drop_left' i.operands_length
  simp only [Instr.positions, List.cons_append, decodePositions, Int.natCast_nonneg, if_true, Int.toNat_natCast,
    Mnemonic.ofId_id, i.ofPorts_operands_append, hdrop]
  rw [if_neg (by simp [i.operands_length])]

theorem programAt_length_append (before rest : List Int) :
    programAt (before ++ rest) (before.length : Int) = decodePositions rest := by
  simp [programAt]

/-! ## The statements -/

/-- Settles O22: the opcode byte gives the mnemonic back, and the ports give the operands back. -/
theorem decodeOfEncode : Obligations.DecodeOfEncode := decode_encode

/-- Settles O20: a word decodes exactly where its byte is the id of a mnemonic, and these ids are 0 to 15. -/
theorem decoderAcceptsExactlyTheSixteenIds : Obligations.DecoderAcceptsExactlyTheSixteenIds := by
  unfold Obligations.DecoderAcceptsExactlyTheSixteenIds
  intro w
  refine ⟨?_, fun i hi => ?_, fun e he => ((decode_error_iff w e).1 he).2⟩
  · simp only [exists_decode_ok_iff, Mnemonic.ofOpcode_eq_some_iff, Mnemonic.exists_id_eq_iff]
  · exact Mnemonic.ofOpcode_eq_some_iff.1 (Mnemonic.ofOpcode_of_decode hi)

/-- Settles O21: both words have the mnemonic `m`, whose instruction reads only the ports of its format. -/
theorem unusedPortsAreIgnored : Obligations.UnusedPortsAreIgnored := by
  unfold Obligations.UnusedPortsAreIgnored
  intro w w' m hop hm h0 h1 h2
  rw [decode_of_opcode hm w.a0 w.a1 w.a2, decode_of_opcode (hop ▸ hm) w'.a0 w'.a1 w'.a2, Instr.ofPorts_congr h0 h1 h2]

/-- Settles O23: the reader finds the id at the given place, takes the operands the opcode has, and leaves the rest. -/
theorem programPositionsReadBack : Obligations.ProgramPositionsReadBack := by
  unfold Obligations.ProgramPositionsReadBack
  intro i before rest
  rw [List.append_assoc, programAt_length_append]
  exact ⟨i.positions_length, decodePositions_positions_append i rest⟩

/-- Settles O19: each byte is looked up in the opcode map, and 18 is not in it. -/
theorem sampleWordsDecode : Obligations.SampleWordsDecode := by
  unfold Obligations.SampleWordsDecode
  exact ⟨decode_of_opcode (m := .NOP) rfl _ _ _, decode_of_opcode (m := .PSH) rfl _ _ _,
    decode_of_opcode (m := .SUB) rfl _ _ _, decode_of_opcode (m := .MOV) rfl _ _ _,
    decode_of_opcode (m := .IFN) rfl _ _ _, decode_of_opcode (m := .GPT) rfl _ _ _,
    (decode_error_iff _ _).2 ⟨rfl, rfl⟩⟩

end Sys2Proof

namespace Sys2Proof.Machine

/-! ## The Instruction Catalog -/

theorem getCatalog_map_id (s : State) : s.getCatalog.map (fun d => d.id) = Mnemonic.all.map Mnemonic.id := by
  rw [State.getCatalog, catalog, List.map_map]
  rfl

theorem eq_definitionOf_of_mem_getCatalog {s : State} {d : OpcodeDefinition} (h : d ∈ s.getCatalog) :
    ∃ m, d = definitionOf m := by
  obtain ⟨m, -, hd⟩ := List.mem_map.1 h
  exact ⟨m, hd.symm⟩

/-- The opcodes whose row of R82 has a stack effect, and GPT, which reads the top (D24). -/
theorem touchesStack_iff (m : Mnemonic) :
    touchesStack m = true ↔ m ∈ [.PSH, .POP, .ADD, .SUB, .MUL, .DIV, .SLT, .GLD, .GPT] := by
  cases m <;> decide

/-- Settles O55: the rows are those of the opcode map in its order, each made from its mnemonic. -/
theorem catalogListsTheOpcodesInIdOrder : Obligations.CatalogListsTheOpcodesInIdOrder := by
  unfold Obligations.CatalogListsTheOpcodesInIdOrder
  intro s
  refine ⟨(getCatalog_map_id s).trans Mnemonic.all_map_id, fun d hd => ?_, fun d hd => ?_⟩ <;>
    obtain ⟨m, rfl⟩ := eq_definitionOf_of_mem_getCatalog hd
  · exact ⟨rfl, rfl⟩
  · exact touchesStack_iff m

end Sys2Proof.Machine
end

section
/-! Proofs of the family `40_dispatch.md`: what a command can be answered with, when it is answered, the events and the
Result of a transaction, the operand errors, and the announce with its commit. -/

namespace Sys2Proof.Machine

/-! ## What a command can be answered with -/

/-- The name under which an execute of `w` is logged: the mnemonic, or the raw byte of an invalid opcode (R118). -/
def logName (w : PortWord) : OpcodeName :=
  match Mnemonic.ofOpcode w.op with
  | some m => .mnemonic m
  | none => .raw w.op

/-- Everything the block can answer the command `c` with in `s`: the two rejections, the Error, the Preview of an
announce, and the Result of an instruction applied at once or at its commit. -/
inductive Answered (s : State) : Command → State → Prop
  | busy {w : PortWord} {k : Staged} (awaiting : s.engine = .awaitingCommit k) :
    Answered s (.execute w) (reject .busy s)
  | raised {w : PortWord} {e : Error} (idle : s.engine = .idle) :
    Answered s (.execute w) (raiseError (logName w) e s)
  | announced {w : PortWord} {i : Instr} {m : Staged} {c : List (Int × Int)} (idle : s.engine = .idle)
    (decoded : decode w = .ok i) (staged : i.mnemonic.staged = some m) (consumed : consumedBy m s = .ok c) :
    Answered s (.execute w) (announce m c s)
  | executed {w : PortWord} {i : Instr} {a : Applied} (idle : s.engine = .idle) (decoded : decode w = .ok i)
    (atOnce : i.mnemonic.staged = none) (effective : effect i s = .ok a) (sound : a.Sound s) :
    Answered s (.execute w) (complete i.mnemonic a)
  | nothingPending (idle : s.engine = .idle) : Answered s .commit (reject .nothingPending s)
  | committed {m : Staged} {a : Applied} (awaiting : s.engine = .awaitingCommit m)
    (applied : applyPending m s = .ok a) (sound : a.Sound s) :
    Answered s .commit { complete m.mnemonic a with engine := .idle }

theorem logName_of_invalid {w : PortWord} (h : Mnemonic.ofOpcode w.op = none) : logName w = .raw w.op := by
  simp [logName, h]

theorem logName_of_decode {w : PortWord} {i : Instr} (h : decode w = .ok i) :
    logName w = .mnemonic i.mnemonic := by
  simp [logName, Mnemonic.ofOpcode_of_decode h]

theorem runExecute_answered {w : PortWord} {s t : State} (h : runExecute w s = .next t) : Answered s (.execute w) t := by
  rcases runExecute_cases h with ⟨k, hk, rfl⟩ | ⟨hs, hop, rfl⟩ | ⟨-, i, hd, hexec⟩
  · exact .busy hk
  · rw [← logName_of_invalid hop]
    exact .raised hs
  · rcases exec_cases hexec with ⟨k, hk, rfl⟩ | ⟨hs, e, rfl⟩ | ⟨hs, m, c, hst, hc, rfl⟩ | ⟨hs, a, hst, heff, ha, rfl⟩
    · exact .busy hk
    · rw [← logName_of_decode hd]
      exact .raised hs
    · exact .announced hs hd hst hc
    · exact .executed hs hd hst heff ha

theorem runCommit_answered {s t : State} (h : runCommit s = .next t) : Answered s .commit t := by
  rcases runCommit_cases h with ⟨hs, rfl⟩ | ⟨m, a, hm, happ, ha, rfl⟩
  · exact .nothingPending hs
  · exact .committed hm happ ha

theorem runCommand_answered {c : Command} {s t : State} (h : runCommand c s = .next t) : Answered s c t := by
  cases c with
  | execute w => exact runExecute_answered h
  | commit => exact runCommit_answered h

/-- A step gives no output, or it takes a command presented without reset and answers it. -/
theorem step_silent_or_answered {s t : State} (h : step s = .next t) :
    (t.response = none ∧ t.events = []) ∨
      ∃ c rest, s.input = ⟨false, some c⟩ :: rest ∧ Answered { s with input := rest } c t := by
  rcases step_cases h with ⟨-, rfl⟩ | ⟨⟨r, c⟩, rest, hi, hcases⟩
  · exact .inl ⟨rfl, rfl⟩
  · rcases hcases with ⟨-, rfl⟩ | ⟨-, -, rfl⟩ | ⟨rfl, w, rfl, hrun⟩ | ⟨rfl, rfl, hrun⟩
    · exact .inl ⟨rfl, rfl⟩
    · exact .inl ⟨rfl, rfl⟩
    · exact .inr ⟨_, rest, hi, runExecute_answered hrun⟩
    · exact .inr ⟨_, rest, hi, runCommit_answered hrun⟩

/-- A step that gives a response takes a command presented without reset and answers it. -/
theorem step_answered {s t : State} {r : Response} (h : step s = .next t) (hr : t.response = some r) :
    ∃ c rest, s.input = ⟨false, some c⟩ :: rest ∧ Answered { s with input := rest } c t := by
  rcases step_silent_or_answered h with ⟨hnone, -⟩ | hanswered
  · simp [hr] at hnone
  · exact hanswered

theorem Answered.response_isSome {s t : State} {c : Command} (h : Answered s c t) : t.response.isSome = true := by
  cases h <;> rfl

theorem Answered.input_eq {s t : State} {c : Command} (h : Answered s c t) : t.input = s.input := by
  cases h with
  | busy | raised | announced | nothingPending => rfl
  | executed _ _ _ _ sound => rw [complete_input, sound.input]
  | committed _ _ sound => exact (complete_input _ _).trans sound.input

/-! ## Every command is answered -/

theorem exec_total {s : State} (hs : s.INV) (i : Instr) : ∃ t, exec i s = .next t := by
  cases hengine : s.engine with
  | awaitingCommit k => exact ⟨_, exec_busy hengine i⟩
  | idle =>
    cases hst : i.mnemonic.staged with
    | none =>
      rw [exec_atOnce hst]
      rcases effect_total hs hst with ⟨a, ha⟩ | ⟨e, he⟩
      · exact ⟨_, ha ▸ execAtOnce_ok hengine⟩
      · exact ⟨_, he ▸ execAtOnce_raise hengine⟩
    | some m =>
      rw [exec_staged hst]
      rcases consumedBy_total m s with ⟨c, hc⟩ | ⟨e, he⟩
      · exact ⟨_, hc ▸ execStaged_ok hengine⟩
      · exact ⟨_, he ▸ execStaged_raise hengine⟩

theorem runExecute_invalid {w : PortWord} {s : State} (hs : s.engine = .idle) (h : Mnemonic.ofOpcode w.op = none) :
    runExecute w s = .next (raiseError (.raw w.op) (.invalidOpcode w.op) s) := by
  simp [runExecute, hs, (decode_error_iff w _).2 ⟨h, rfl⟩]

theorem runExecute_total {s : State} (hs : s.INV) (w : PortWord) : ∃ t, runExecute w s = .next t := by
  cases hengine : s.engine with
  | awaitingCommit k => exact ⟨_, runExecute_busy hengine w⟩
  | idle =>
    cases hop : Mnemonic.ofOpcode w.op with
    | none => exact ⟨_, runExecute_invalid hengine hop⟩
    | some m =>
      obtain ⟨i, hd⟩ := (exists_decode_ok_iff w).2 ⟨m, hop⟩
      rw [runExecute_ok hd]
      exact exec_total hs i

/-- Where its precondition holds, the pending opcode can be applied. -/
theorem applyPending_of_pre {s : State} {m : Staged} (hs : s.INV) (hpre : s.pre m = true) :
    ∃ c a, consumedBy m s = .ok c ∧ applyPending m s = .ok a := by
  obtain ⟨c, hc⟩ := (consumedBy_ok_iff hs).2 hpre
  obtain ⟨a, ha⟩ := applyPending_ok_of_consumedBy hc
  exact ⟨c, a, hc, ha⟩

theorem runCommit_total {s : State} (hs : s.Inv) : ∃ t, runCommit s = .next t := by
  cases hengine : s.engine with
  | idle => exact ⟨_, runCommit_idle hengine⟩
  | awaitingCommit m =>
    obtain ⟨-, a, -, ha⟩ := applyPending_of_pre hs.1 (hs.pre hengine)
    exact ⟨_, runCommit_ok hengine ha⟩

theorem runCommand_total {s : State} (hs : s.Inv) (c : Command) : ∃ t, runCommand c s = .next t := by
  cases c with
  | execute w => exact runExecute_total hs.1 w
  | commit => exact runCommit_total hs

/-- Settles O4: reset and an empty presentation are taken without a response, and under the invariant every command is
answered. -/
theorem everyPresentationIsAnswered : Obligations.EveryPresentationIsAnswered := by
  unfold Obligations.EveryPresentationIsAnswered
  rintro s ⟨reset, command⟩ rest hs hi
  match reset, command with
  | true, _ => exact ⟨_, step_cons hi, rfl, by simp [resetBlock, State.reset]⟩
  | false, none => exact ⟨_, step_nothingPresented hi, rfl, by simp⟩
  | false, some c =>
    obtain ⟨t, ht⟩ := runCommand_total ((Inv_congr (sameBlock_withInput s rest)).2 hs) c
    have hanswered := runCommand_answered ht
    exact ⟨t, (step_cons hi).trans ht, hanswered.input_eq, by simp [hanswered.response_isSome]⟩

/-! ## Rejections -/

/-- Settles O9: of the answers only two are rejections, and each says in which mode and to which command it is given. -/
theorem rejectionsChangeNothing : Obligations.RejectionsChangeNothing := by
  unfold Obligations.RejectionsChangeNothing
  intro s t reason h hresp
  obtain ⟨c, rest, hi, hanswered⟩ := step_answered h hresp
  cases hanswered with
  | @busy w k awaiting =>
    obtain rfl : RejectReason.busy = reason := by simpa [reject] using hresp
    exact ⟨sameBlock_withInput s rest, fun _ => ⟨(mode_awaiting_iff s).2 ⟨k, awaiting⟩, w, rest, hi⟩, nofun⟩
  | nothingPending idle =>
    obtain rfl : RejectReason.nothingPending = reason := by simpa [reject] using hresp
    exact ⟨sameBlock_withInput s rest, nofun, fun _ => ⟨(mode_idle_iff s).2 idle, rest, hi⟩⟩
  | raised | announced | executed | committed => cases hresp

/-- Settles O10: the mode is checked before the word and the instruction are looked at. -/
theorem executeWhileAwaitingCommitIsBusy : Obligations.ExecuteWhileAwaitingCommitIsBusy := by
  unfold Obligations.ExecuteWhileAwaitingCommitIsBusy
  intro s m hm
  have awaiting := (pending_some_iff s m).1 hm
  exact ⟨fun w => ⟨_, (step_execute s w).trans (runExecute_busy awaiting w), sameBlock_reject _ s, rfl, rfl, rfl⟩,
    fun i => ⟨_, exec_busy awaiting i, sameBlock_reject _ s, rfl, rfl⟩⟩

/-- Settles O12: the rejection only sets the outputs. -/
theorem commitInIdleIsRejected : Obligations.CommitInIdleIsRejected := by
  unfold Obligations.CommitInIdleIsRejected
  intro s hmode
  exact ⟨_, (step_commit s).trans (runCommit_idle ((mode_idle_iff s).1 hmode)), sameBlock_reject _ s, rfl, rfl, rfl⟩

/-! ## Events -/

/-- Settles O13: of the answers to an execute only one is an Error, with its one `onLog`. -/
theorem errorEmitsExactlyOneLog : Obligations.ErrorEmitsExactlyOneLog := by
  unfold Obligations.ErrorEmitsExactlyOneLog
  intro s t w e h hresp
  cases runExecute_answered h with
  | raised => rfl
  | busy | announced | executed => cases hresp

/-- Settles O15: waiting and reset are silent, and of the answers the rejections and the Preview have no event. -/
theorem noEventsWithoutResultOrError : Obligations.NoEventsWithoutResultOrError := by
  unfold Obligations.NoEventsWithoutResultOrError
  intro s t h hevents
  rcases step_silent_or_answered h with ⟨-, hnone⟩ | ⟨c, rest, -, hanswered⟩
  · exact absurd hnone hevents
  · cases hanswered with
    | busy | announced | nothingPending => exact absurd rfl hevents
    | raised => exact .inr ⟨_, rfl⟩
    | executed | committed => exact .inl ⟨_, complete_response _ _⟩

/-- The effect signals no halt and gives the log no detail. -/
def Applied.Quiet (a : Applied) : Prop := a.halt = false ∧ a.detail = none

theorem pushed_quiet {v : Int} {s : State} {a : Applied} (h : pushed v s = .ok a) : a.Quiet := by
  unfold pushed at h
  split at h <;> cases h
  exact ⟨rfl, rfl⟩

theorem applyPop_quiet {s : State} {a : Applied} (h : applyPop s = .ok a) : a.Quiet := by
  unfold applyPop at h
  split at h <;> cases h
  exact ⟨rfl, rfl⟩

theorem applyBinary_quiet {f : Int → Int → Int} {o : Except Stop (Int × Int)} {s : State} {a : Applied}
    (h : applyBinary f o s = .ok a) : a.Quiet := by
  unfold applyBinary at h
  split at h <;> cases h
  exact ⟨rfl, rfl⟩

theorem applyPending_quiet {m : Staged} {s : State} {a : Applied} (h : applyPending m s = .ok a) : a.Quiet := by
  cases m with
  | pop => exact applyPop_quiet h
  | add => exact applyBinary_quiet h
  | sub => exact applyBinary_quiet h
  | mul => exact applyBinary_quiet h
  | div => exact applyBinary_quiet h
  | slt => exact applyBinary_quiet h

/-- Of the instructions applied at once only HLT signals halt and only LOG gives the log a detail. -/
theorem effect_signals {i : Instr} {s : State} {a : Applied} (hst : i.mnemonic.staged = none) (h : effect i s = .ok a) :
    (a.halt = true → i.mnemonic = .HLT) ∧ (i.mnemonic ≠ .LOG → a.detail = none) := by
  have signals_of_quiet (ha : a.Quiet) :
      (a.halt = true → i.mnemonic = .HLT) ∧ (i.mnemonic ≠ .LOG → a.detail = none) := by simp [ha.1, ha.2]
  cases i <;> try cases hst
  case hlt => cases h; exact ⟨fun _ => rfl, fun _ => rfl⟩
  case nop => cases h; exact signals_of_quiet ⟨rfl, rfl⟩
  case psh => exact signals_of_quiet (pushed_quiet h)
  case mov => simp only [effect, applyMov] at h; split at h <;> cases h; exact signals_of_quiet ⟨rfl, rfl⟩
  case set => simp only [effect, applySet] at h; split at h <;> cases h; exact signals_of_quiet ⟨rfl, rfl⟩
  case log => simp only [effect, applyLog] at h; split at h <;> cases h; exact ⟨nofun, fun hne => absurd rfl hne⟩
  case if_ => simp only [effect, applyIf] at h; split at h <;> cases h; exact signals_of_quiet ⟨rfl, rfl⟩
  case ifn => simp only [effect, applyIfn] at h; split at h <;> cases h; exact signals_of_quiet ⟨rfl, rfl⟩
  case gld =>
    simp only [effect, applyGld] at h
    split at h
    · cases h
    · exact signals_of_quiet (pushed_quiet h)
  case gpt =>
    simp only [effect, applyGpt] at h
    split at h
    · cases h
    · split at h <;> cases h
      exact signals_of_quiet ⟨rfl, rfl⟩

/-- Settles O14: both answers with a Result are completions, whose events are made from that Result. -/
theorem successEventsFollowTheResult : Obligations.SuccessEventsFollowTheResult := by
  unfold Obligations.SuccessEventsFollowTheResult
  intro s t r h hresp
  obtain ⟨c, rest, hi, hanswered⟩ := step_answered h hresp
  cases hanswered with
  | @executed w i a idle decoded atOnce effective sound =>
    obtain rfl : resultOf a (complete i.mnemonic a) = r := by simpa [complete_response] using hresp
    exact ⟨i.mnemonic, a.detail, .inl ⟨w, rest, hi, Mnemonic.ofOpcode_of_decode decoded, atOnce⟩,
      (effect_signals atOnce effective).2, complete_events _ _⟩
  | @committed m a awaiting applied sound =>
    obtain rfl : resultOf a (complete m.mnemonic a) = r := by simpa [complete_response] using hresp
    exact ⟨m.mnemonic, a.detail, .inr ⟨m, rest, hi, (pending_some_iff s m).2 awaiting, rfl⟩,
      fun _ => (applyPending_quiet applied).2, complete_events _ _⟩
  | busy | raised | announced | nothingPending => cases hresp

/-! ## The Result -/

/-- The Result accounts for the whole transaction from `s` to `t`: what it lists has its final value in `t`, what it does
not list is as in `s`, each list ascends, and HLT's signal comes with an unchanged block (R114). -/
def Result.Accounts (r : Result) (s t : State) : Prop :=
  (∀ q v, (q, v) ∈ r.changedRegisters → q ≠ .IP ∧ t.reg q = v) ∧
    (∀ q, q ≠ .IP → q ∉ r.changedRegisters.map Prod.fst → t.reg q = s.reg q) ∧
    (∀ i c, (i, c) ∈ r.changedStackCells → t.cell i = c) ∧
    (∀ i, i ∉ r.changedStackCells.map Prod.fst → t.cell i = s.cell i) ∧
    r.changedRegisters.Pairwise (fun a b => a.1.number < b.1.number) ∧
    r.changedStackCells.Pairwise (fun a b => a.1 < b.1) ∧
    r.newIP = t.pc ∧ t.mode = .idle ∧ (r.halt = true → s.SameBlock t)

theorem resultOf_registers (a : Applied) (t : State) :
    (resultOf a t).changedRegisters.map Prod.fst = a.regs.filter (fun q => decide (q ≠ .IP)) := by
  simp [resultOf, Function.comp_def]

theorem resultOf_cells (a : Applied) (t : State) : (resultOf a t).changedStackCells.map Prod.fst = a.cells := by
  simp [resultOf, Function.comp_def]

/-- No advance follows HLT, so its completion leaves the block as its effect does. -/
theorem sameBlock_complete_HLT {a : Applied} {s : State} (sound : a.Sound s) (hhalt : a.halt = true) :
    s.SameBlock (complete .HLT a) := by
  rw [← sound.haltKeeps hhalt]
  simp [State.SameBlock, complete, advance]

/-- The Result of a sound effect accounts for any `t` with the registers and cells of its completion, in `Idle`. -/
theorem resultOf_accounts {a : Applied} {s t : State} (sound : a.Sound s)
    (hregs : ∀ q, q ≠ .IP → t.reg q = a.state.reg q) (hcells : ∀ i, t.cell i = a.state.cell i)
    (hidle : t.engine = .idle) (hhalt : a.halt = true → s.SameBlock t) : (resultOf a t).Accounts s t := by
  refine ⟨?_, ?_, ?_, ?_, ?_, ?_, rfl, (mode_idle_iff t).2 hidle, hhalt⟩
  · simp +contextual [resultOf]
  · intro q hIP hq
    rw [hregs q hIP]
    exact sound.regsKept q (by simpa [resultOf_registers, hIP] using hq) hIP
  · simp +contextual [resultOf]
  · intro i hi
    rw [hcells i]
    exact sound.cellsKept i (by rwa [resultOf_cells] at hi)
  · have hlength : (resultOf a t).changedRegisters.length ≤ 1 := by
      simpa [resultOf] using (List.length_filter_le _ a.regs).trans sound.oneReg
    exact List.pairwise_iff_getElem.2 fun i j _ hj hij => by omega
  · exact List.pairwise_map.2 sound.ascending

theorem executed_accounts {i : Instr} {a : Applied} {s : State} (idle : s.engine = .idle)
    (atOnce : i.mnemonic.staged = none) (effective : effect i s = .ok a) (sound : a.Sound s) :
    (resultOf a (complete i.mnemonic a)).Accounts s (complete i.mnemonic a) := by
  refine resultOf_accounts sound (fun q hq => complete_reg _ _ hq) (complete_cell _ _)
    (by rw [complete_engine, sound.engine, idle]) fun hhalt => ?_
  rw [(effect_signals atOnce effective).1 hhalt]
  exact sameBlock_complete_HLT sound hhalt

theorem committed_accounts {m : Staged} {a : Applied} {s : State} (applied : applyPending m s = .ok a)
    (sound : a.Sound s) :
    (resultOf a (complete m.mnemonic a)).Accounts s { complete m.mnemonic a with engine := .idle } := by
  refine resultOf_accounts (t := { complete m.mnemonic a with engine := .idle }) sound
    (fun q hq => complete_reg _ _ hq) (complete_cell _ _) rfl fun hhalt => ?_
  simp [(applyPending_quiet applied).1] at hhalt

/-- Settles O16: both answers with a Result complete a sound effect, which writes what the instruction or the pending
opcode is said to write. -/
theorem resultReportsEveryWrite : Obligations.ResultReportsEveryWrite := by
  unfold Obligations.ResultReportsEveryWrite
  intro s t r h hresp
  obtain ⟨c, rest, hi, hanswered⟩ := step_answered h hresp
  cases hanswered with
  | @executed w i a idle decoded atOnce effective sound =>
    obtain rfl : resultOf a (complete i.mnemonic a) = r := by simpa [complete_response] using hresp
    obtain ⟨hregs, hcells, -⟩ := effect_writes atOnce effective
    have accounts := executed_accounts idle atOnce effective sound
    refine ⟨fun w' i' rest' hi' hd' => ?_, fun m rest' hi' => ?_, accounts⟩
    · obtain ⟨rfl, rfl⟩ : w = w' ∧ rest = rest' := by simpa [hi, executeOf] using hi'
      obtain rfl : i = i' := by simpa [decoded] using hd'
      rw [resultOf_registers, resultOf_cells, hregs, hcells]
      exact ⟨rfl, rfl⟩
    · simp [hi, commitOnly] at hi'
  | @committed m a awaiting applied sound =>
    obtain rfl : resultOf a (complete m.mnemonic a) = r := by simpa [complete_response] using hresp
    obtain ⟨hregs, hcells, -⟩ := applyPending_writes applied
    have accounts := committed_accounts applied sound
    refine ⟨fun w i rest' hi' => ?_, fun m' rest' _ hm' => ?_, accounts⟩
    · simp [hi, executeOf] at hi'
    · have awaiting : s.engine = .awaitingCommit m := awaiting
      obtain rfl : m = m' := by simpa [awaiting] using hm'
      rw [resultOf_registers, resultOf_cells, hregs, hcells]
      exact ⟨rfl, rfl⟩
  | busy | raised | announced | nothingPending => cases hresp

/-! ## What a step reads -/

theorem runPresented_answer (p : Presented) (s : State) (r : Option Response) (e : List Event) :
    runPresented p (s.answer r e) = runPresented p s := by
  match p with
  | ⟨true, _⟩ => rfl
  | ⟨false, none⟩ => rfl
  | ⟨false, some (.execute w)⟩ => exact runExecute_answer w s r e
  | ⟨false, some .commit⟩ => exact runCommit_answer s r e

/-- Settles O17: the presentation is taken off either state alike, and nothing that is presented reads the outputs. -/
theorem outputsNeverFeedBack : Obligations.OutputsNeverFeedBack := by
  unfold Obligations.OutputsNeverFeedBack
  intro s r e
  cases hi : s.input with
  | nil => rw [step_nil hi, step_nil (s := s.answer r e) hi]; rfl
  | cons p rest =>
    rw [step_cons hi, step_cons (s := s.answer r e) hi]
    exact runPresented_answer p { s with input := rest } r e

/-- Settles O18: the presented word is run by `runExecute`, in either mode. -/
theorem stepRunsTheDecodedInstruction : Obligations.StepRunsTheDecodedInstruction := by
  unfold Obligations.StepRunsTheDecodedInstruction
  intro s w i rest hi hd
  exact (step_cons hi).trans (runExecute_ok hd _)

/-! ## Operand errors -/

theorem badOperand_invalidRegister {i : Instr} {e : Error} (h : badOperand i = some e) :
    ∃ port a, e = .invalidRegister port a := by
  cases i <;> simp only [badOperand, reduceCtorEq] at h
  case mov x y =>
    split at h
    · exact ⟨0, x, (Option.some.inj h).symm⟩
    · split at h <;> cases h
      exact ⟨1, y, rfl⟩
  all_goals
    split at h <;> cases h
    exact ⟨0, _, rfl⟩

/-- The error of an instruction, if any, is that of its first illegal operand, or one that the Stack gives. -/
theorem raised_cases {i : Instr} {s : State} {e : Error} (h : raised i s = some e) :
    badOperand i = some e ∨ e = .stackOverflow ∨ e = .stackUnderflow ∨ e = .divideByZero := by
  cases hbad : badOperand i with
  | some e' => exact .inl ((raised_of_badOperand s hbad).symm.trans h)
  | none => exact .inr (raised_of_wellFormed ((badOperand_none_iff i).1 hbad) h)

theorem raised_invalidRegister_iff {i : Instr} {s : State} {port : Nat} {a : Int} :
    raised i s = some (.invalidRegister port a) ↔ badOperand i = some (.invalidRegister port a) := by
  refine ⟨fun h => ?_, raised_of_badOperand s⟩
  simpa using raised_cases h

theorem raised_ne_invalidOpcode {i : Instr} {s : State} {op : OpByte} : raised i s ≠ some (.invalidOpcode op) := by
  intro h
  have hbad : badOperand i = some (.invalidOpcode op) := by simpa using raised_cases h
  obtain ⟨port, a, e⟩ := badOperand_invalidRegister hbad
  cases e

theorem exists_badOperand_iff (i : Instr) :
    (∃ port a, badOperand i = some (.invalidRegister port a)) ↔ i.wellFormed = false := by
  rw [← Bool.not_eq_true, ← badOperand_none_iff, ← ne_eq, Option.ne_none_iff_exists']
  constructor
  · rintro ⟨port, a, h⟩
    exact ⟨_, h⟩
  · rintro ⟨e, h⟩
    obtain ⟨port, a, rfl⟩ := badOperand_invalidRegister h
    exact ⟨port, a, h⟩

/-- Settles O45: in `Idle` the answer is the first illegal operand, whatever the state. -/
theorem invalidRegisterExactlyWhenIllFormed : Obligations.InvalidRegisterExactlyWhenIllFormed := by
  unfold Obligations.InvalidRegisterExactlyWhenIllFormed
  intro s hmode
  have idle := (mode_idle_iff s).1 hmode
  simp only [answersError_iff idle, raised_invalidRegister_iff]
  refine ⟨exists_badOperand_iff, ?_, ?_, ?_, ?_⟩ <;> simp +contextual [badOperand]

/-! ## The opcode check -/

theorem Mnemonic.ofOpcode_none_iff (op : OpByte) : Mnemonic.ofOpcode op = none ↔ 16 ≤ op.toNat := by
  have hsome := Mnemonic.exists_id_eq_iff op.toNat
  simp only [← Mnemonic.ofOpcode_eq_some_iff, ← Option.ne_none_iff_exists'] at hsome
  rw [← not_iff_not, ← ne_eq, hsome]
  omega

/-- Settles O24: a byte that is no opcode raises before any operand is looked at, and a decoded instruction raises only
the errors of its operands and of the Stack. -/
theorem invalidOpcodeIsRaisedExactlyAbove15 : Obligations.InvalidOpcodeIsRaisedExactlyAbove15 := by
  unfold Obligations.InvalidOpcodeIsRaisedExactlyAbove15
  intro s w hmode
  have idle := (mode_idle_iff s).1 hmode
  rw [step_execute, ← Mnemonic.ofOpcode_none_iff]
  cases hop : Mnemonic.ofOpcode w.op with
  | none =>
    rw [runExecute_invalid idle hop]
    refine ⟨fun _ => answersError_raise, fun op ⟨t, ht, hresp, _⟩ => ⟨rfl, ?_⟩⟩
    obtain rfl := Host.Outcome.next.inj ht
    simpa [raiseError, eq_comm] using hresp
  | some m =>
    obtain ⟨i, hd⟩ := (exists_decode_ok_iff w).2 ⟨m, hop⟩
    rw [runExecute_ok hd]
    exact ⟨nofun, fun op h => absurd ((answersError_iff idle i _).1 h) raised_ne_invalidOpcode⟩

/-! ## Announce and commit -/

theorem cellsWritten_of_staged {i : Instr} {m : Staged} (h : i.mnemonic.staged = some m) (s : State) :
    cellsWritten s i = [] := by
  cases i <;> cases h <;> rfl

/-- Settles O48: the frame of `exec`, read for an instruction that writes nothing at execute. -/
theorem stagedExecuteChangesOnlyTheMode : Obligations.StagedExecuteChangesOnlyTheMode := by
  unfold Obligations.StagedExecuteChangesOnlyTheMode
  intro i m s t hst h
  obtain ⟨hregs, hcells, hinput, hengine⟩ := exec_frame h
  rw [hst, if_neg (by simp)] at hregs
  rw [cellsWritten_of_staged hst] at hcells
  refine ⟨hregs, hcells, hinput, hengine.imp_right fun ⟨m', hm', hawaiting, _⟩ => ?_⟩
  obtain rfl : m = m' := Option.some.inj (hst.symm.trans hm')
  exact (pending_some_iff t m).2 hawaiting

/-- Completing reads neither the engine nor the outputs of the effect's state, and carries the engine along. -/
theorem complete_withEngine_answer (m : Mnemonic) (a : Applied) (e e' : Engine) (resp : Option Response)
    (ev : List Event) :
    { complete m { a with state := ({ a.state with engine := e } : State).answer resp ev } with engine := e' } =
      { complete m a with engine := e' } := by
  unfold complete advance
  split <;> rfl

theorem withEngine_self {s : State} {e : Engine} (h : s.engine = e) : { s with engine := e } = s := by
  rw [← h]

theorem execImmediate_ok {m : Staged} {s : State} {c : List (Int × Int)} {a : Applied} (hs : s.engine = .idle)
    (hc : consumedBy m s = .ok c) (ha : applyPending m s = .ok a) :
    execImmediate m s = .next (complete m.mnemonic a) := by
  simp [execImmediate, execStagedWith, hs, hc, ha, conclude]

/-- A commit right after the announce completes the opcode as if it had been applied at once. -/
theorem runCommit_announce {m : Staged} {s : State} {a : Applied} (c : List (Int × Int)) (hs : s.engine = .idle)
    (ha : applyPending m s = .ok a) : runCommit (announce m c s) = .next (complete m.mnemonic a) := by
  have hidle : (complete m.mnemonic a).engine = .idle := by rw [complete_engine, (applyPending_sound ha).engine, hs]
  have happlied := applyPending_congr (.awaitingCommit m) (some (.preview m.mnemonic c)) [] ha
  calc runCommit (announce m c s)
    _ = _ := runCommit_ok rfl happlied
    _ = .next { complete m.mnemonic a with engine := .idle } := by rw [complete_withEngine_answer]
    _ = .next (complete m.mnemonic a) := by rw [withEngine_self hidle]

/-- Settles O53: the precondition makes the announce and the `apply` succeed, and both routes end in one completion. -/
theorem announceThenCommitIsImmediate : Obligations.AnnounceThenCommitIsImmediate := by
  unfold Obligations.AnnounceThenCommitIsImmediate
  intro i m s hst hs hmode hpre
  have idle := (mode_idle_iff s).1 hmode
  obtain ⟨c, a, hc, ha⟩ := applyPending_of_pre hs hpre
  have hexec : exec i s = .next (announce m c s) := by rw [exec_staged hst, hc, execStaged_ok idle]
  exact ⟨_, _, hexec, rfl, (step_commit _).trans (runCommit_announce c idle ha), execImmediate_ok idle hc ha⟩

end Sys2Proof.Machine
end

section
/-! Proofs of the family `41_control_hlt_nop.md`: HLT only signals, and NOP only advances the instruction pointer. -/

namespace Sys2Proof.Machine

/-- In `Idle` an instruction applied at once completes its effect, where its checks hold. -/
theorem exec_atOnce_ok {i : Instr} {s : State} {a : Applied} (hs : s.engine = .idle)
    (hst : i.mnemonic.staged = none) (ha : effect i s = .ok a) : exec i s = .next (complete i.mnemonic a) := by
  rw [exec_atOnce hst, ha, execAtOnce_ok hs]

/-! ## HLT -/

/-- The Result of an HLT (R130, D8). -/
def hltResult (s : State) : Result :=
  { changedRegisters := [], changedStackCells := [], newIP := s.pc, halt := true }

/-- HLT writes nothing and no advance follows it, so only the outputs are set. -/
theorem exec_hlt {s : State} (hs : s.engine = .idle) :
    exec .hlt s = .next (s.answer (some (.result (hltResult s))) [.onLog (.mnemonic .HLT) none false]) := by
  rw [exec_atOnce_ok (a := { state := s, halt := true }) hs rfl rfl]
  rfl

/-- An execute reads nothing that the last transaction answered. -/
theorem step_execute_answer (s : State) (r : Option Response) (e : List Event) (w : PortWord) :
    step ((s.answer r e).present (executeOf w)) = step (s.present (executeOf w)) := by
  rw [step_execute, step_execute, runExecute_answer]

/-- Settles O30: HLT sets the outputs only, and no later execute reads them. -/
theorem hltOnlySignals : Obligations.HltOnlySignals := by
  unfold Obligations.HltOnlySignals
  intro s hmode
  have idle := (mode_idle_iff s).1 hmode
  exact ⟨_, exec_hlt idle, sameBlock_answer s _ _, rfl, rfl, rfl, step_execute_answer s _ _⟩

/-! ## NOP -/

/-- NOP has no effect, so its completion is the advance of IP alone. -/
theorem exec_nop {s : State} (hs : s.engine = .idle) : exec .nop s = .next (complete .NOP { state := s }) :=
  exec_atOnce_ok hs rfl rfl

theorem complete_NOP_pc (s : State) : (complete .NOP { state := s }).pc = s.pc + 1 := by
  simp [complete_pc, Mnemonic.len, Mnemonic.operandByteCount, Mnemonic.format, Format.operandCount]

/-- Settles O31: byte 1 is the id of NOP, the frame is that of an instruction that writes nothing, and the Result and the
events report the advanced pointer. -/
theorem nopOnlyAdvancesPc : Obligations.NopOnlyAdvancesPc := by
  unfold Obligations.NopOnlyAdvancesPc
  refine ⟨decode_of_opcode (m := .NOP) rfl, rfl, fun s hmode => ?_⟩
  have hexec := exec_nop ((mode_idle_iff s).1 hmode)
  obtain ⟨hregs, hcells, hkept⟩ := exec_atOnce_frame rfl hexec
  refine ⟨_, hexec, complete_NOP_pc s, hregs, hcells, hkept, ?_, ?_⟩
  · rw [complete_response, resultOf, complete_NOP_pc]
    rfl
  · rw [complete_events, resultOf, complete_NOP_pc]
    rfl

end Sys2Proof.Machine
end

section
/-! Proofs of the family `42_stack_psh_pop.md`: PSH pushes its operand at once, and POP discards the top at its commit. -/

namespace Sys2Proof.Machine

/-! ## An effect that moves the top of the Stack -/

/-- The effect of a push or a pop: the cell `i` gets the content `c`, and SP the value `n` (R140, R141). -/
def moveTop (i : Int) (c : Option Int) (n : Int) (s : State) : Applied :=
  { state := (s.setCell i c).setReg .SP n, regs := [.SP], cells := [i] }

theorem pushed_eq_moveTop {s : State} (hs : s.INV) (v : Int) (hsp : s.sp ≠ 9) :
    pushed v s = .ok (moveTop (s.sp + 1) (some v) (s.sp + 1) s) := by
  rw [pushed, push_of_INV hs v hsp, setCell_setReg]
  simp [moveTop]

theorem applyPop_eq_moveTop {s : State} {v : Int} (hv : s.cell s.sp = some v) :
    applyPop s = .ok (moveTop s.sp none (s.sp - 1) s) := by
  rw [applyPop, pop_of_cell hv]
  rfl

/-- What the completion of such an effect leaves, with its Result and its events. -/
theorem complete_moveTop {m : Mnemonic} (hm : m ≠ .HLT) {i : Int} (hi : 0 ≤ i ∧ i < 10) (c : Option Int) (n : Int)
    (s : State) {t : State} (ht : t = complete m (moveTop i c n s)) :
    t.sp = n ∧ t.cell i = c ∧ t.pc = s.pc + m.len ∧
      s.KeepsRegsBut t [.SP, .IP] ∧ s.KeepsCellsBut t [i] ∧ s.KeepsEngineAndInput t ∧
      t.response = some (.result {
        changedRegisters := [(.SP, n)]
        changedStackCells := [(i, c)]
        newIP := s.pc + m.len
        halt := false }) ∧
      t.events = [.onLog (.mnemonic m) none false, .onRegisterChanged .SP n, .onStackChanged i c,
        .onIPChanged (s.pc + m.len)] := by
  obtain ⟨htop, hcell, hregs, hcells, hengine, hinput⟩ := setCell_setSP_frame s hi c n
  have hsp : t.sp = n := by rw [ht, complete_sp, moveTop, htop]
  have hread : t.cell i = c := by rw [ht, complete_cell, moveTop, hcell]
  have hpc : t.pc = s.pc + m.len := by simp [ht, complete_pc, moveTop, hm]
  have hresult : resultOf (moveTop i c n s) t =
      { changedRegisters := [(.SP, n)], changedStackCells := [(i, c)], newIP := s.pc + m.len, halt := false } := by
    simp [resultOf, moveTop, hsp, hread, hpc]
  refine ⟨hsp, hread, hpc, fun r hr => ?_, fun j hj => ?_, ⟨?_, ?_⟩, ?_, ?_⟩
  · simp only [List.mem_cons, List.not_mem_nil, or_false, not_or] at hr
    rw [ht, complete_reg _ _ hr.2]
    exact hregs r (List.mem_singleton.not.2 hr.1)
  · rw [ht, complete_cell]
    exact hcells j hj
  · rw [ht, complete_engine]
    exact hengine
  · rw [ht, complete_input]
    exact hinput
  · rw [← hresult, ht, complete_response]
  · rw [ht, complete_events, ← ht, hresult]
    simp [successEvents, hm, moveTop]

/-! ## PSH -/

/-- Settles O32: byte 2 is the id of PSH, a full stack raises, and otherwise the push completes as a move of the top. -/
theorem pshPushesItsOperand : Obligations.PshPushesItsOperand := by
  unfold Obligations.PshPushesItsOperand
  refine ⟨decode_of_opcode (m := .PSH) rfl, rfl, fun s val hs hmode => ?_⟩
  have idle := (mode_idle_iff s).1 hmode
  constructor
  · intro hfull
    rw [answersError_iff idle, raised_eq hs]
    exact if_pos hfull
  · intro hroom
    have hlow := hs.1
    have hhigh := hs.sp_le
    have hroom : s.sp ≠ 9 := hroom
    exact ⟨_, exec_atOnce_ok idle rfl (pushed_eq_moveTop hs val hroom),
      complete_moveTop (m := .PSH) (by decide) ⟨by omega, by omega⟩ (some val) (s.sp + 1) s rfl⟩

/-! ## POP -/

theorem announced_announce (m : Staged) (consumed : List (Int × Int)) (s : State) :
    s.Announced (announce m consumed s) m consumed := ⟨rfl, rfl, rfl, rfl, rfl, rfl, rfl⟩

theorem previewOne_of_cell {s : State} {v : Int} (hv : s.cell s.sp = some v) : previewOne s = .ok [(s.sp, v)] := by
  rw [previewOne, peek_ok_iff.2 (by rwa [sub_zero])]

/-- In `Idle` a POP with a value on top is announced with that value. -/
theorem exec_pop {s : State} {v : Int} (hs : s.engine = .idle) (hv : s.cell s.sp = some v) :
    exec .pop s = .next (announce .pop [(s.sp, v)] s) := by
  rw [exec_staged (m := .pop) rfl, consumedBy, previewOne_of_cell hv, execStaged_ok hs]

/-- Settles O39: an empty stack raises, and otherwise the commit after the announce completes as a move of the top. -/
theorem popDiscardsTheTopAtCommit : Obligations.PopDiscardsTheTopAtCommit := by
  unfold Obligations.PopDiscardsTheTopAtCommit
  intro s hs hmode
  have idle := (mode_idle_iff s).1 hmode
  constructor
  · intro hempty
    rw [answersError_iff idle, raised_eq hs]
    exact if_pos hempty
  · intro v hv
    have hcommit : step ((announce .pop [(s.sp, v)] s).present commitOnly) =
        .next (complete .POP (moveTop s.sp none (s.sp - 1) s)) :=
      (step_commit _).trans (runCommit_announce _ idle (applyPop_eq_moveTop hv))
    obtain ⟨hsp, hcell, hpc, hregs, hcells, ⟨hengine, hinput⟩, houtputs⟩ :=
      complete_moveTop (m := .POP) (by decide) (index_of_cell hv) none (s.sp - 1) s rfl
    exact ⟨_, _, exec_pop idle hv, announced_announce _ _ s, hcommit, (mode_idle_iff _).2 (hengine.trans idle), hinput,
      hsp, hpc, hcell, hregs, hcells, houtputs⟩

end Sys2Proof.Machine
end

section
/-! Proofs of the family `43_arithmetic.md`: the binary stack opcodes are announced, their commit leaves one value in the
place of two, and the depth of the Stack falls by 1. -/

namespace Sys2Proof.Machine

/-! ## The effect of a binary opcode -/

/-- The effect of a binary opcode with the result `r`: it replaces the two top values, and SP falls by 1 (R150). -/
def replaceTwo (r : Int) (s : State) : Applied :=
  { state := ((s.setCell s.sp none).setCell (s.sp - 1) (some r)).setReg .SP (s.sp - 1)
    regs := [.SP]
    cells := [s.sp - 1, s.sp] }

theorem applyBinary_eq_replaceTwo (f : Int → Int → Int) (second top : Int) (s : State) :
    applyBinary f (.ok (second, top)) s = .ok (replaceTwo (f second top) s) := applyBinary_ok f second top s

section ReplaceTwo
variable (r : Int) (s : State)

@[simp] theorem replaceTwo_regs : (replaceTwo r s).regs = [.SP] := rfl
@[simp] theorem replaceTwo_cellsListed : (replaceTwo r s).cells = [s.sp - 1, s.sp] := rfl
@[simp] theorem replaceTwo_taken : (replaceTwo r s).taken = false := rfl
@[simp] theorem replaceTwo_halt : (replaceTwo r s).halt = false := rfl
@[simp] theorem replaceTwo_detail : (replaceTwo r s).detail = none := rfl
@[simp] theorem replaceTwo_sp : (replaceTwo r s).state.sp = s.sp - 1 := by simp [replaceTwo]
@[simp] theorem replaceTwo_pc : (replaceTwo r s).state.pc = s.pc := by simp [replaceTwo]

end ReplaceTwo

/-- Where both cells exist, the lower one holds the result and the upper one is empty. -/
theorem replaceTwo_cells {s : State} (hlow : 1 ≤ s.sp) (hhigh : s.sp < 10) (r : Int) :
    (replaceTwo r s).state.cell (s.sp - 1) = some r ∧ (replaceTwo r s).state.cell s.sp = none := by
  have hupper (j : Int) := cell_setCell s s.sp j none ⟨by omega, hhigh⟩
  have hlower (j : Int) := cell_setCell (s.setCell s.sp none) (s.sp - 1) j (some r) ⟨by omega, by omega⟩
  have hdistinct : s.sp ≠ s.sp - 1 := by omega
  simp [replaceTwo, hlower, hupper, hdistinct]

/-! ## Announce and commit of a binary opcode -/

/-- No staged opcode has an operand, so the advance after its commit is by 1 (R72, R73). -/
theorem staged_mnemonic_len (m : Staged) : m.mnemonic.len = 1 := by cases m <;> rfl

theorem staged_mnemonic_ne_HLT (m : Staged) : m.mnemonic ≠ .HLT := by cases m <;> decide

theorem complete_replaceTwo_pc (m : Staged) (r : Int) (s : State) :
    (complete m.mnemonic (replaceTwo r s)).pc = s.pc + 1 := by
  simp [complete_pc, staged_mnemonic_ne_HLT, staged_mnemonic_len]

/-- The Result of the commit lists SP and the two cells with what they then hold (R114). -/
theorem resultOf_replaceTwo {s : State} (hlow : 1 ≤ s.sp) (hhigh : s.sp < 10) (m : Staged) (r : Int) :
    resultOf (replaceTwo r s) (complete m.mnemonic (replaceTwo r s)) =
      { changedRegisters := [(.SP, s.sp - 1)]
        changedStackCells := [(s.sp - 1, some r), (s.sp, none)]
        newIP := s.pc + 1
        halt := false } := by
  obtain ⟨hlower, hupper⟩ := replaceTwo_cells hlow hhigh r
  simp [resultOf, complete_replaceTwo_pc, complete_sp, hlower, hupper]

/-- A binary opcode whose checks find its operands is announced with both, and the commit that follows completes the
replacement of the two by the result. -/
theorem binaryRuns_of_operands {i : Instr} {m : Staged} {s : State} {f : Int → Int → Int}
    {operands : Except Stop (Int × Int)} {second top : Int} (hst : i.mnemonic.staged = some m)
    (hconsumed : consumedBy m s = previewTwo operands s) (happly : applyPending m s = applyBinary f operands s)
    (idle : s.engine = .idle) (hlow : 1 ≤ s.sp) (hhigh : s.sp < 10) (ho : operands = .ok (second, top)) :
    BinaryRuns i m s second top (f second top) := by
  rw [ho] at hconsumed happly
  rw [applyBinary_eq_replaceTwo] at happly
  have hexec : exec i s = .next (announce m [(s.sp, top), (s.sp - 1, second)] s) := by
    rw [exec_staged hst, hconsumed, previewTwo, execStaged_ok idle]
  have hcommit := runCommit_announce [(s.sp, top), (s.sp - 1, second)] idle happly
  obtain ⟨hlower, hupper⟩ := replaceTwo_cells hlow hhigh (f second top)
  have hresult := resultOf_replaceTwo hlow hhigh m (f second top)
  have sound := applyPending_sound happly
  refine ⟨_, _, hexec, announced_announce _ _ s, (step_commit _).trans hcommit, ?_,
    (complete_input _ _).trans sound.input, (complete_sp _ _).trans (replaceTwo_sp _ s),
    complete_replaceTwo_pc m _ s, (complete_cell _ _ _).trans hlower, (complete_cell _ _ _).trans hupper, ?_, ?_, ?_, ?_⟩
  · rw [mode_idle_iff, complete_engine, sound.engine, idle]
  · intro r hr
    simp only [List.mem_cons, List.not_mem_nil, or_false, not_or] at hr
    rw [complete_reg _ _ hr.2]
    exact sound.regsKept r (List.mem_singleton.not.2 hr.1) hr.2
  · intro j hj
    rw [complete_cell]
    exact sound.cellsKept j hj
  · rw [complete_response, hresult]
  · rw [complete_events, hresult]
    simp [successEvents, staged_mnemonic_ne_HLT]

/-- Settles O40: the four opcodes share one precondition and one run, and differ in the function of their operands. -/
theorem addSubMulSltLeaveTheirResult : Obligations.AddSubMulSltLeaveTheirResult := by
  unfold Obligations.AddSubMulSltLeaveTheirResult
  intro s second top _ hmode hsp hsecond htop
  have idle := (mode_idle_iff s).1 hmode
  have hhigh := (index_of_cell htop).2
  have operands := twoOperands_ok_iff.2 ⟨hsecond, htop⟩
  exact ⟨binaryRuns_of_operands (f := fun second top => second + top) rfl rfl rfl idle hsp hhigh operands,
    binaryRuns_of_operands (f := fun second top => second - top) rfl rfl rfl idle hsp hhigh operands,
    binaryRuns_of_operands (f := fun second top => second * top) rfl rfl rfl idle hsp hhigh operands,
    binaryRuns_of_operands (f := lessThan) rfl rfl rfl idle hsp hhigh operands⟩

/-! ## DIV -/

/-- The remainder law of `trunc` (R5, G1): what the quotient leaves is smaller than the divisor and not of the sign
opposite to the dividend's. -/
theorem trunc_remainder (b : Int) {a : Int} (ha : a ≠ 0) :
    ∃ r, b = a * trunc b a + r ∧ r.natAbs < a.natAbs ∧ (r = 0 ∨ r.sign = b.sign) := by
  refine ⟨b.tmod a, (Int.mul_tdiv_add_tmod b a).symm, ?_, ?_⟩
  · rw [Int.natAbs_tmod]
    exact Nat.mod_lt _ (Int.natAbs_pos.2 ha)
  · by_cases hdvd : a ∣ b
    · exact .inl (Int.tmod_eq_zero_of_dvd hdvd)
    · exact .inr (by rw [Int.sign_tmod, if_neg hdvd])

/-- Settles O41: a zero divisor is what the check of DIV raises, and otherwise the binary run leaves `trunc`. -/
theorem divLeavesTheTruncatedQuotient : Obligations.DivLeavesTheTruncatedQuotient := by
  unfold Obligations.DivLeavesTheTruncatedQuotient
  intro s second top hs hmode hsp hsecond htop
  have idle := (mode_idle_iff s).1 hmode
  constructor
  · rintro rfl
    rw [answersError_iff idle, raised_eq hs]
    exact (if_neg (by omega)).trans (if_pos htop)
  · intro hnonzero
    have operands := divOperands_ok_iff.2 ⟨hsecond, htop, hnonzero⟩
    obtain ⟨r, hremainder⟩ := trunc_remainder second hnonzero
    exact ⟨trunc second top, r,
      binaryRuns_of_operands rfl rfl rfl idle hsp (index_of_cell htop).2 operands, hremainder⟩

/-! ## The depth of the Stack -/

/-- A list whose first `n` entries, and no others, satisfy `p` has `n` that do. -/
theorem countP_eq_of_prefix {α : Type} {p : α → Bool} {l : List α} {n : Nat} (hn : n ≤ l.length)
    (h : ∀ (k : Nat) (hk : k < l.length), p l[k] = true ↔ k < n) : l.countP p = n := by
  have hfront : (l.take n).countP p = (l.take n).length := by
    rw [List.countP_eq_length]
    intro a ha
    obtain ⟨k, hk, rfl⟩ := List.mem_take_iff_getElem.1 ha
    exact (h k (by omega)).2 (by omega)
  have hback : (l.drop n).countP p = 0 := by
    rw [List.countP_eq_zero]
    intro a ha
    obtain ⟨k, hk, rfl⟩ := List.mem_drop_iff_getElem.1 ha
    exact mt (h (n + k) (by omega)).1 (by omega)
  calc l.countP p
    _ = (l.take n).countP p + (l.drop n).countP p := by rw [← List.countP_append, List.take_append_drop]
    _ = n := by rw [hfront, hback, List.length_take, min_eq_left hn, Nat.add_zero]

theorem cell_eq_getElem (s : State) {k : Nat} (hk : k < Config.cap) : s.cell (k : Int) = s.cells[k] := by
  have hindex : isCellIndex (k : Int) = true := isCellIndex_iff.2 ⟨by omega, by exact_mod_cast hk⟩
  simp [State.cell, hindex, hk]

/-- Under `INV` the occupied cells are `0..sp` (R31). -/
theorem State.INV.occupied_eq {s : State} (hs : s.INV) : (s.occupied : Int) = s.sp + 1 := by
  have hlow := hs.1
  have hhigh := hs.sp_le
  have hcount : s.occupied = (s.sp + 1).toNat := by
    refine countP_eq_of_prefix (by simp [Config.cap]; omega) fun k hk => ?_
    have hk : k < Config.cap := by simpa using hk
    rw [Vector.getElem_toList, ← cell_eq_getElem s hk, hs.occupied_iff]
    omega
  omega

theorem State.SameBlock.occupied_eq {s t : State} (h : s.SameBlock t) : t.occupied = s.occupied := by
  rw [State.occupied, h.2.1, State.occupied]

/-- The commit of a pending opcode succeeds under the invariant and takes one value off the Stack. -/
theorem runCommit_reduces_occupied {s : State} (hs : s.Inv) (awaiting : s.mode = .awaitingCommit) :
    ∃ t, runCommit s = .next t ∧ t.occupied + 1 = s.occupied := by
  obtain ⟨t, ht⟩ := runCommit_total hs
  have hbefore := hs.1.occupied_eq
  have hafter := (runCommit_keeps_Inv hs ht).1.occupied_eq
  obtain ⟨k, hk⟩ := (mode_awaiting_iff s).1 awaiting
  obtain ⟨hidle, -, ⟨-, -, hengine⟩ | ⟨m, -, hsp, -⟩⟩ := runCommit_frame ht
  · simp [hidle, hk] at hengine
  · exact ⟨t, ht, by omega⟩

/-- Settles O54: under `INV` the depth is read from `sp`; an Error and an announce keep the cells, and the commit takes
one value off. -/
theorem binaryOpcodesReduceTheDepthByOne : Obligations.BinaryOpcodesReduceTheDepthByOne := by
  unfold Obligations.BinaryOpcodesReduceTheDepthByOne
  intro s hs
  refine ⟨hs.occupied_eq, fun i t hmode hbinary hexec => ?_⟩
  have idle := (mode_idle_iff s).1 hmode
  have hinv := exec_keeps_Inv (Inv_of_idle hs idle) hexec
  rcases exec_cases hexec with ⟨k, hk, -⟩ | ⟨-, e, rfl⟩ | ⟨-, m, c, -, -, rfl⟩ | ⟨-, a, hst, -⟩
  · simp [idle] at hk
  · exact .inl ⟨hmode, rfl, e, rfl⟩
  · exact .inr ⟨rfl, rfl, runCommit_reduces_occupied hinv rfl⟩
  · rcases hbinary with rfl | rfl | rfl | rfl | rfl <;> cases hst

end Sys2Proof.Machine
end

section
/-! Proofs of the family `44_register_mov_set_log.md`: MOV and SET write one register other than SP before the advance,
and LOG writes none. -/

namespace Sys2Proof.Machine

/-! ## A completed register write -/

section WroteReg
variable (r : Reg) (v : Int) (s : State)

@[simp] theorem wroteReg_state : (wroteReg r v s).state = s.setReg r v := rfl
@[simp] theorem wroteReg_regs : (wroteReg r v s).regs = [r] := rfl
@[simp] theorem wroteReg_cells : (wroteReg r v s).cells = [] := rfl
@[simp] theorem wroteReg_taken : (wroteReg r v s).taken = false := rfl
@[simp] theorem wroteReg_halt : (wroteReg r v s).halt = false := rfl
@[simp] theorem wroteReg_detail : (wroteReg r v s).detail = none := rfl

end WroteReg

/-- The advance follows the write, so a value written to IP is counted from (R111, D7). -/
theorem complete_wroteReg_pc {m : Mnemonic} (hm : m ≠ .HLT) (r : Reg) (v : Int) (s : State) :
    (complete m (wroteReg r v s)).pc = (if r = .IP then v else s.pc) + m.len := by
  simp [complete_pc, hm]

theorem complete_wroteReg_reg (m : Mnemonic) {r : Reg} (hr : r ≠ .IP) (v : Int) (s : State) :
    (complete m (wroteReg r v s)).reg r = v := by
  simp [complete_reg _ _ hr]

/-- The Result lists the written register unless it is IP, whose final value is `newIP` (R114). -/
theorem resultOf_wroteReg (m : Mnemonic) (r : Reg) (v : Int) (s : State) :
    resultOf (wroteReg r v s) (complete m (wroteReg r v s)) =
      { changedRegisters := if r = .IP then [] else [(r, v)]
        changedStackCells := []
        newIP := (complete m (wroteReg r v s)).pc
        halt := false } := by
  by_cases hr : r = .IP
  · simp [resultOf, hr]
  · simp [resultOf, hr, complete_wroteReg_reg]

/-- What a destination register of an instruction other than HLT is left with, and the frame, the Result and the events
of its write. -/
theorem complete_wroteReg {m : Mnemonic} (hm : m ≠ .HLT) {r : Reg} (hr : r ≠ .SP) (v : Int) (s : State) {t : State}
    (ht : t = complete m (wroteReg r v s)) :
    (r ≠ .IP → t.reg r = v) ∧ t.pc = (if r = .IP then v else s.pc) + m.len ∧
      s.KeepsRegsBut t [r, .IP] ∧ s.KeepsCellsBut t [] ∧ s.KeepsEngineAndInput t ∧
      t.response = some (.result {
        changedRegisters := if r = .IP then [] else [(r, v)]
        changedStackCells := []
        newIP := t.pc
        halt := false }) ∧
      t.events = [.onLog (.mnemonic m) none false] ++ (if r = .IP then [] else [.onRegisterChanged r v])
        ++ [.onIPChanged t.pc] := by
  subst ht
  have sound := wroteReg_sound v s hr
  refine ⟨fun hIP => complete_wroteReg_reg m hIP v s, complete_wroteReg_pc hm r v s, fun q hq => ?_, fun i hi => ?_,
    ⟨?_, ?_⟩, ?_, ?_⟩
  · simp only [List.mem_cons, List.not_mem_nil, or_false, not_or] at hq
    rw [complete_reg _ _ hq.2]
    exact sound.regsKept q (List.mem_singleton.not.2 hq.1) hq.2
  · rw [complete_cell]
    exact sound.cellsKept i hi
  · rw [complete_engine, sound.engine]
  · rw [complete_input, sound.input]
  · rw [complete_response, resultOf_wroteReg]
  · rw [complete_events, resultOf_wroteReg]
    split <;> simp [successEvents, hm]

/-! ## MOV and SET -/

/-- In `Idle` MOV completes a write of the source's value to the destination. -/
theorem exec_mov {s : State} (hs : s.engine = .idle) (a : Reg) {b : Reg} (hb : b ≠ .SP) :
    exec (.mov a.number b.number) s = .next (complete .MOV (wroteReg b (s.reg a) s)) := by
  have happly : applyMov a.number b.number s = .ok (wroteReg b (s.reg a) s) := by
    rw [applyMov, movOperands_eq, regOperand_number, dstOperand_number 1 hb]
  exact exec_atOnce_ok hs rfl happly

/-- In `Idle` SET completes a write of the constant to the destination. -/
theorem exec_set {s : State} (hs : s.engine = .idle) {r : Reg} (hr : r ≠ .SP) (val : Int) :
    exec (.set r.number val) s = .next (complete .SET (wroteReg r val s)) := by
  have happly : applySet r.number val s = .ok (wroteReg r val s) := by
    rw [applySet, dstOperand_number 0 hr]
  exact exec_atOnce_ok hs rfl happly

/-- Settles O35: both operands name registers, and the source's value is written to the destination. -/
theorem movCopiesARegister : Obligations.MovCopiesARegister := by
  unfold Obligations.MovCopiesARegister
  intro s a b hmode hb
  exact ⟨_, exec_mov ((mode_idle_iff s).1 hmode) a hb,
    complete_wroteReg (m := .MOV) (by decide) hb (s.reg a) s rfl⟩

/-- Settles O36: the operand names a register that may be written, and the constant is written to it. -/
theorem setLoadsAConstant : Obligations.SetLoadsAConstant := by
  unfold Obligations.SetLoadsAConstant
  intro s r val hmode hr
  exact ⟨_, exec_set ((mode_idle_iff s).1 hmode) hr val,
    complete_wroteReg (m := .SET) (by decide) hr val s rfl⟩

/-! ## LOG -/

/-- In `Idle` LOG leaves the state to the advance and hands the register and its value to the `onLog` (D27). -/
theorem exec_log {s : State} (hs : s.engine = .idle) (r : Reg) :
    exec (.log r.number) s = .next (complete .LOG { state := s, detail := some (r, s.reg r) }) := by
  have happly : applyLog r.number s = .ok { state := s, detail := some (r, s.reg r) } := by
    rw [applyLog, regOperand_number]
  exact exec_atOnce_ok hs rfl happly

theorem complete_LOG_pc (s : State) (detail : Option (Reg × Int)) :
    (complete .LOG { state := s, detail := detail }).pc = s.pc + 2 := by
  simp [complete_pc, Mnemonic.len, Mnemonic.operandByteCount, Mnemonic.format, Format.operandCount]

/-- Settles O37: the frame is that of an instruction that writes nothing, and the detail goes out in the one `onLog`. -/
theorem logReportsARegister : Obligations.LogReportsARegister := by
  unfold Obligations.LogReportsARegister
  intro s r hmode
  have hexec := exec_log ((mode_idle_iff s).1 hmode) r
  obtain ⟨hregs, hcells, hkept⟩ := exec_atOnce_frame rfl hexec
  refine ⟨_, hexec, complete_LOG_pc s _, hregs, hcells, hkept, ?_, ?_⟩
  · rw [complete_response, resultOf, complete_LOG_pc]
    rfl
  · rw [complete_events, resultOf, complete_LOG_pc]
    rfl

end Sys2Proof.Machine
end

section
/-! Proofs of the family `45_branch_if_ifn.md`: IF and IFN complete one branch, under opposite conditions. -/

namespace Sys2Proof.Machine

/-! ## A completed branch -/

section BranchTo
variable (taken : Bool) (target : Int) (s : State)

@[simp] theorem branchTo_regs : (branchTo taken target s).regs = [] := rfl
@[simp] theorem branchTo_cells : (branchTo taken target s).cells = [] := rfl
@[simp] theorem branchTo_taken : (branchTo taken target s).taken = taken := rfl
@[simp] theorem branchTo_halt : (branchTo taken target s).halt = false := rfl
@[simp] theorem branchTo_detail : (branchTo taken target s).detail = none := rfl

theorem branchTo_pc : (branchTo taken target s).state.pc = if taken then target else s.pc := by
  cases taken <;> simp [branchTo]

end BranchTo

/-- A taken branch leaves the target itself, since no advance follows it; the advance of one not taken counts from the
old `pc` (R180, R181). -/
theorem complete_branchTo_pc {m : Mnemonic} (hm : m ≠ .HLT) (taken : Bool) (target : Int) (s : State) :
    (complete m (branchTo taken target s)).pc = if taken then target else s.pc + m.len := by
  cases taken <;> simp [complete_pc, hm, branchTo_pc]

/-- A branch writes no register but IP and no cell, so its Result lists nothing beside `newIP` (R114). -/
theorem resultOf_branchTo (taken : Bool) (target : Int) (s t : State) :
    resultOf (branchTo taken target s) t =
      { changedRegisters := [], changedStackCells := [], newIP := t.pc, halt := false } := by
  simp [resultOf]

/-- The frame, the Result and the events of a branch by an instruction other than HLT, taken or not. -/
theorem complete_branchTo {m : Mnemonic} (hm : m ≠ .HLT) (taken : Bool) (target : Int) (s : State) {t : State}
    (ht : t = complete m (branchTo taken target s)) :
    s.KeepsRegsBut t [.IP] ∧ s.KeepsCellsBut t [] ∧ s.KeepsEngineAndInput t ∧
      t.response = some (.result { changedRegisters := [], changedStackCells := [], newIP := t.pc, halt := false }) ∧
      t.events = [.onLog (.mnemonic m) none false, .onIPChanged t.pc] := by
  subst ht
  have sound := branchTo_sound taken target s
  refine ⟨fun q hq => ?_, fun i hi => ?_, ⟨?_, ?_⟩, ?_, ?_⟩
  · have hIP := List.mem_singleton.not.1 hq
    rw [complete_reg _ _ hIP]
    exact sound.regsKept q List.not_mem_nil hIP
  · rw [complete_cell]
    exact sound.cellsKept i hi
  · rw [complete_engine, sound.engine]
  · rw [complete_input, sound.input]
  · rw [complete_response, resultOf_branchTo]
  · rw [complete_events, resultOf_branchTo]
    simp [successEvents, hm]

/-! ## IF and IFN -/

/-- In `Idle` IF completes a branch that is taken where the register equals the comparand. -/
theorem exec_if {s : State} (hs : s.engine = .idle) (r : Reg) (val target : Int) :
    exec (.if_ r.number val target) s = .next (complete .IF (branchTo (takenIf (s.reg r) val) target s)) := by
  have happly : applyIf r.number val target s = .ok (branchTo (takenIf (s.reg r) val) target s) := by
    rw [applyIf, regOperand_number]
  exact exec_atOnce_ok hs rfl happly

/-- In `Idle` IFN completes a branch that is taken where the register differs from the comparand. -/
theorem exec_ifn {s : State} (hs : s.engine = .idle) (r : Reg) (val target : Int) :
    exec (.ifn r.number val target) s = .next (complete .IFN (branchTo (takenIfn (s.reg r) val) target s)) := by
  have happly : applyIfn r.number val target s = .ok (branchTo (takenIfn (s.reg r) val) target s) := by
    rw [applyIfn, regOperand_number]
  exact exec_atOnce_ok hs rfl happly

/-- Both have three operands, so the advance of one not taken is by 4 (D23). -/
theorem branch_len : Mnemonic.IF.len = 4 ∧ Mnemonic.IFN.len = 4 := ⟨rfl, rfl⟩

theorem complete_if_pc (x val target : Int) (s : State) :
    (complete .IF (branchTo (takenIf x val) target s)).pc = if x = val then target else s.pc + 4 := by
  rw [complete_branchTo_pc (by decide), branch_len.1]
  simp [takenIf]

/-- The condition of IFN is the negation of that of IF, which exchanges the two outcomes. -/
theorem complete_ifn_pc (x val target : Int) (s : State) :
    (complete .IFN (branchTo (takenIfn x val) target s)).pc = if x = val then s.pc + 4 else target := by
  rw [complete_branchTo_pc (by decide), branch_len.2]
  simp [takenIfn]

/-- Settles O38: both complete a branch to the same target, and their conditions are each other's negation. -/
theorem ifAndIfnBranchOppositely : Obligations.IfAndIfnBranchOppositely := by
  unfold Obligations.IfAndIfnBranchOppositely
  intro s r val target hmode
  have idle := (mode_idle_iff s).1 hmode
  obtain ⟨ifRegs, ifCells, ifKept, ifResponse, ifEvents⟩ :=
    complete_branchTo (m := .IF) (by decide) (takenIf (s.reg r) val) target s rfl
  obtain ⟨ifnRegs, ifnCells, ifnKept, ifnResponse, ifnEvents⟩ :=
    complete_branchTo (m := .IFN) (by decide) (takenIfn (s.reg r) val) target s rfl
  exact ⟨_, _, exec_if idle r val target, exec_ifn idle r val target, complete_if_pc _ _ _ _, complete_ifn_pc _ _ _ _,
    ifRegs, ifnRegs, ifCells, ifnCells, ifKept, ifnKept, ifResponse, ifnResponse, ifEvents, ifnEvents⟩

end Sys2Proof.Machine
end

section
/-! Proofs of the family `46_stack_register_gld_gpt.md`: GLD is a push of a register's value, and GPT a register write of
the top value. -/

namespace Sys2Proof.Machine

/-! ## GLD -/

/-- With room on the Stack, GLD completes a move of the top onto the value the register had at the start (D14). -/
theorem exec_gld {s : State} (idle : s.engine = .idle) (hs : s.INV) (hroom : s.sp ≠ 9) (r : Reg) :
    exec (.gld r.number) s = .next (complete .GLD (moveTop (s.sp + 1) (some (s.reg r)) (s.sp + 1) s)) := by
  have happly : applyGld r.number s = .ok (moveTop (s.sp + 1) (some (s.reg r)) (s.sp + 1) s) := by
    rw [applyGld, regOperand_number]
    exact pushed_eq_moveTop hs (s.reg r) hroom
  exact exec_atOnce_ok idle rfl happly

/-- Settles O33: the operand names a register, a full stack raises, and otherwise the push completes as a move of the
top. -/
theorem gldPushesARegister : Obligations.GldPushesARegister := by
  unfold Obligations.GldPushesARegister
  intro s r hs hmode
  have idle := (mode_idle_iff s).1 hmode
  constructor
  · intro hfull
    have hlegal : namesRegister r.number = true := (namesRegister_iff _).2 ⟨r, rfl⟩
    rw [answersError_iff idle, raised_eq hs]
    simp [hlegal, hfull]
  · intro hroom
    have hlow := hs.1
    have hhigh := hs.sp_le
    have hroom : s.sp ≠ 9 := hroom
    exact ⟨_, exec_gld idle hs hroom r,
      complete_moveTop (m := .GLD) (by decide) ⟨by omega, by omega⟩ (some (s.reg r)) (s.sp + 1) s rfl⟩

/-! ## GPT -/

/-- With a value on top, GPT completes a write of that value to the destination. -/
theorem exec_gpt {s : State} (idle : s.engine = .idle) {r : Reg} (hr : r ≠ .SP) {v : Int} (htop : s.cell s.sp = some v) :
    exec (.gpt r.number) s = .next (complete .GPT (wroteReg r v s)) := by
  have hpeek : peek 0 s = .ok v := peek_ok_iff.2 (by rwa [sub_zero])
  have happly : applyGpt r.number s = .ok (wroteReg r v s) := by
    rw [applyGpt, dstOperand_number 0 hr, hpeek]
  exact exec_atOnce_ok idle rfl happly

/-- Settles O34: the operand names a register that may be written, an empty stack raises, and otherwise the top value is
written to the register. -/
theorem gptCopiesTheTop : Obligations.GptCopiesTheTop := by
  unfold Obligations.GptCopiesTheTop
  intro s r hs hmode hr
  have idle := (mode_idle_iff s).1 hmode
  constructor
  · intro hempty
    have hlegal : namesDestination r.number = true := (namesDestination_iff _).2 ⟨r, rfl, hr⟩
    rw [answersError_iff idle, raised_eq hs]
    simp [hlegal, hempty]
  · intro v htop
    exact ⟨_, exec_gpt idle hr htop, complete_wroteReg (m := .GPT) (by decide) hr v s rfl⟩

end Sys2Proof.Machine
end

section
/-! Proofs of the families `60_exceptions.md` and `70_reset_and_hazards.md`: what an Error leaves, when the Stack's errors and
`DivideByZero` are raised, and reset from any state. -/

namespace Sys2Proof.Machine

/-! ## What an Error leaves -/

/-- Of the answers to a command only one is an Error: it is raised by an execute in `Idle`, and only sets the outputs. -/
theorem Answered.error_inv {s t : State} {c : Command} {e : Error} (h : Answered s c t)
    (hresp : t.response = some (.error e)) :
    s.engine = .idle ∧ ∃ w, c = .execute w ∧ t = raiseError (logName w) e s := by
  cases h with
  | @raised w e' idle =>
    obtain rfl : e' = e := by simpa [raiseError] using hresp
    exact ⟨idle, w, rfl, rfl⟩
  | busy | announced | executed | nothingPending | committed => cases hresp

/-- Settles O7: the step raised in `Idle`, and raising keeps the block. -/
theorem errorsLeaveNoTrace : Obligations.ErrorsLeaveNoTrace := by
  unfold Obligations.ErrorsLeaveNoTrace
  intro s t e h hresp
  obtain ⟨c, rest, -, hanswered⟩ := step_answered h hresp
  obtain ⟨idle, w, -, rfl⟩ := hanswered.error_inv hresp
  exact ⟨sameBlock_raiseError _ e { s with input := rest }, (mode_idle_iff _).2 idle⟩

/-- Settles O8: the error only sets the outputs, and an execute reads none of them. -/
theorem errorsRepeat : Obligations.ErrorsRepeat := by
  unfold Obligations.ErrorsRepeat
  intro s t w e h hresp
  rw [step_execute] at h ⊢
  obtain ⟨-, w', -, ht⟩ := (runExecute_answered h).error_inv hresp
  have hreads : runExecute w t = runExecute w s := ht ▸ runExecute_answer w s _ _
  exact hreads.trans h

/-! ## When the Stack's errors and DivideByZero are raised

Each instruction's own error is read off `raised_eq`: first the instructions that can raise the error, then the others,
which raise none or a different one. -/

theorem raised_stackOverflow_iff {i : Instr} {s : State} (hs : s.INV) :
    raised i s = some .stackOverflow ↔
      s.sp = 9 ∧ ((∃ v, i = .psh v) ∨ ∃ r, i = .gld r ∧ namesRegister r = true) := by
  rw [raised_eq hs]
  cases i with
  | psh v => simp
  | gld r => cases hlegal : namesRegister r <;> simp [hlegal]
  | hlt | nop => simp
  | pop | add | sub | mul | div | slt | mov | set | log | if_ | ifn | gpt => simp [ite_eq_iff]

theorem raised_stackUnderflow_iff {i : Instr} {s : State} (hs : s.INV) :
    raised i s = some .stackUnderflow ↔
      (s.sp = -1 ∧ (i = .pop ∨ ∃ r, i = .gpt r ∧ namesDestination r = true)) ∨
      (s.sp ≤ 0 ∧ (i = .add ∨ i = .sub ∨ i = .mul ∨ i = .div ∨ i = .slt)) := by
  rw [raised_eq hs]
  cases i with
  | pop => simp
  | gpt r => cases hlegal : namesDestination r <;> simp [hlegal]
  | add | sub | mul | slt => simp
  | div => simp [ite_eq_iff]
  | hlt | nop => simp
  | psh | mov | set | log | if_ | ifn | gld => simp [ite_eq_iff]

theorem raised_divideByZero_iff {i : Instr} {s : State} (hs : s.INV) :
    raised i s = some .divideByZero ↔ i = .div ∧ 1 ≤ s.sp ∧ s.cell s.sp = some 0 := by
  rw [raised_eq hs]
  cases i with
  | div =>
    have htwo : ¬ s.sp ≤ 0 ↔ 1 ≤ s.sp := by omega
    simp [ite_eq_iff, ← htwo]
  | hlt | nop => simp
  | psh | pop | add | sub | mul | slt | mov | set | log | if_ | ifn | gld | gpt => simp [ite_eq_iff]

/-- Settles O42: in `Idle` the answer is the error that the checks raise, read instruction by instruction. -/
theorem stackOverflowExactlyWhenFull : Obligations.StackOverflowExactlyWhenFull := by
  unfold Obligations.StackOverflowExactlyWhenFull
  intro i s hs hmode
  exact (answersError_iff ((mode_idle_iff s).1 hmode) i _).trans (raised_stackOverflow_iff hs)

/-- Settles O43: as for `StackOverflow`; the operand of GPT is checked before the Stack (D12). -/
theorem stackUnderflowExactlyWhenTooFew : Obligations.StackUnderflowExactlyWhenTooFew := by
  unfold Obligations.StackUnderflowExactlyWhenTooFew
  intro i s hs hmode
  exact (answersError_iff ((mode_idle_iff s).1 hmode) i _).trans (raised_stackUnderflow_iff hs)

/-- Settles O44: only DIV looks at the value of its divisor, and only where the two operands exist. -/
theorem divideByZeroExactlyOnAZeroDivisor : Obligations.DivideByZeroExactlyOnAZeroDivisor := by
  unfold Obligations.DivideByZeroExactlyOnAZeroDivisor
  intro i s hs hmode
  exact (answersError_iff ((mode_idle_iff s).1 hmode) i _).trans (raised_divideByZero_iff hs)

/-! ## Reset from any state -/

/-- Settles O6: whatever the state was, the block is that of the reset state, so the commit presented next finds it in
`Idle`. -/
theorem resetFromAnyStateGivesTheBaseline : Obligations.ResetFromAnyStateGivesTheBaseline := by
  unfold Obligations.ResetFromAnyStateGivesTheBaseline
  intro s c
  obtain ⟨hregs, hcells, hengine⟩ := sameBlock_iff.1 (sameBlock_resetBlock s)
  have idle : (resetBlock s).engine = .idle := hengine
  refine ⟨resetBlock s, step_reset s c, fun r => (hregs r).trans (reset_reg r), fun i => (hcells i).trans (reset_cell i),
    (mode_idle_iff _).2 idle, (pending_none_iff _).2 idle, rfl, rfl, rfl, ?_⟩
  exact ⟨_, (step_commit _).trans (runCommit_idle idle), rfl, sameBlock_reject _ _⟩

end Sys2Proof.Machine
end
